-- ==== Sys2Proof/Word.lean ====
section
/-! DEFINITION. The words and register numbers of the P751-FAU (rules R3, R10, R31 to R33 of spec/). -/

namespace Sys2Proof

/-- A single-width residue: 12 limbs of 64 bits, limb 0 least significant (R3, R10). -/
abbrev FWord := BitVec 768

/-- A double-width residue: 24 limbs of 64 bits (R3, R10). -/
abbrev DWord := BitVec 1536

/-- One limb, and one 64-bit host access (R3, R73). -/
abbrev Limb := BitVec 64

/-- The 32-bit command word CW (R100). -/
abbrev CmdWord := BitVec 32

/-- A byte offset inside the register window, 0x000 to 0xFFF (R70). -/
abbrev Offset := BitVec 12

/-- The number of an F register, f0 to f15 (R31). -/
abbrev FReg := Fin 16

/-- The number of a D register, d0 to d3 (R33). -/
abbrev DReg := Fin 4

/-- The number of an E pair, e0 to e7 (R32). -/
abbrev EPair := Fin 8

end Sys2Proof
end

