-- ==== Sys2Proof/Config.lean ====
section
/-! DEFINITION. The parameters of the hardware (R8), its fixed constants, and the free values that the
spec leaves unspecified (R16). A free value and an OPEN parameter have no body: no proof can use a value of theirs. -/

namespace Sys2Proof

/-- The modulus p = 2^372·3^239 − 1 (R2), written with the digits of R9.
DESIGN CHOICE (log 1): the default value of R2 is taken, not the parameter `P`. -/
def Config.p : Nat :=
  0x6fe5d541f71c0e12909f97badc668562b5045cb25748084e9867d6ebe876da959b1a13f7cc76e3ec968549f878a8eeafffffffffffffffffffffffffffffffffffffffffffffffffffffffffffffffffffffffffffffffffffffffffffff

/-- The Montgomery radix R = 2^768 (R3). -/
def Config.radix : Nat := 2 ^ 768

/-- inv_p(R), the inverse of the radix modulo p, with the digits of R9. -/
def Config.rInv : Nat :=
  0x10697b6387eb53ccdbc062eb0c61f118a0c0e417a25d438209e6ce499615f828587c510583cf29ebe4d49805c5c62f75f424f8df437cfa421554fe2e49ca85bab790796cf84d4d74319a6c9bca37551ae9f5f5f6aff3b7f731b89b2da43f

/-- The value of the ID register (R60). -/
def Config.idValue : Limb := 0x0000400C02EF0001

/-- BASE / 4096: BASE is an OPEN parameter, aligned to 4096 bytes (R70, D36, log 12). -/
opaque Config.basePage : Nat

/-- BASE, the host address of the register window (R70). -/
def Config.base : Nat := 4096 * Config.basePage

/-- ANY for an F register (R15, R16): the draw of step `tick` for the destination `slot`
(0 the only or the real destination, 1 the imaginary one). A free value (log 3). -/
opaque Config.anyF : (tick : Nat) → (slot : Nat) → FWord

/-- ANY for the data of an operand read while BUSY = 1 (R77), drawn at step `tick`. A free value (log 4). -/
opaque Config.anyLimb : (tick : Nat) → Limb

/-- LAT(c) of a constant-time command (R8, D25), a function of the opcode and of imm8 alone. OPEN (log 11). -/
opaque Config.latency : BitVec 6 → BitVec 8 → Nat

/-- LAT(c) of FVEQ and EVEQ, which may depend on the operand values (R7). OPEN (log 11). -/
opaque Config.latencyVartime : BitVec 6 → List FWord → Nat

end Sys2Proof
end

