-- ==== Sys2Proof/Machine/Field.lean ====
section
/-! DEFINITION. The arithmetic of the datapaths on unbounded integers (R12): Montgomery reduction and product,
the double-width subtract, the P34 chain and its procedure. -/

namespace Sys2Proof.Machine

/-- Montgomery reduction: (t · inv_p(R)) mod p (R12, R142). -/
def redc (t : Nat) : Nat := t * Config.rInv % Config.p

/-- The Montgomery product mmul(x, y) (R12). -/
def mmul (x y : Nat) : Nat := redc (x * y)

/-- (x + y) mod p (R198). -/
def addP (x y : Nat) : Nat := (x + y) % Config.p

/-- (x − y) mod p, the least non-negative remainder (R12, R200). -/
def subP (x y : Nat) : Nat := (((x : Int) - (y : Int)) % (Config.p : Int)).toNat

/-- x ≡ y mod p (R208). -/
def congruentP (x y : Nat) : Bool := x % Config.p == y % Config.p

/-- The lazy double-width subtract (R148): x − y when x ≥ y, else (x − y + p·2^768) mod 2^1536. -/
def subLazy (x y : Nat) : Nat :=
  if y ≤ x then x - y
  else (((x : Int) - (y : Int) + (Config.p : Int) * (Config.radix : Int)) % (2 ^ 1536 : Int)).toNat

/-- One conditional subtraction of p (R150). -/
def strongReduce (x : Nat) : Nat := if Config.p ≤ x then x - Config.p else x

/-- n Montgomery squarings in a row: the source's Pow2k in place (R196, R216). -/
def squareTimes (n s : Nat) : Nat := (fun x => mmul x x)^[n] s

/-- The initial odd exponent e0 of the chain ROM (R214). -/
def chainInit : Nat := 27

/-- Pairs 0 to 62 of the chain ROM: (squaring count, odd multiplier exponent) (R214). -/
def chainHead : List (Nat × Nat) :=
  [(5, 31), (7, 23), (6, 21), (2, 1), (10, 31), (4, 7), (6, 7), (9, 7),
   (8, 9), (5, 9), (9, 19), (4, 15), (7, 23), (5, 23), (5, 11), (4, 7)] ++
  [(8, 25), (3, 5), (9, 21), (5, 17), (5, 11), (4, 5), (10, 17), (4, 7),
   (6, 11), (6, 9), (6, 23), (5, 9), (8, 1), (9, 19), (3, 5), (4, 3)] ++
  [(9, 25), (4, 15), (5, 11), (6, 29), (6, 31), (2, 1), (9, 29), (4, 11),
   (5, 13), (5, 9), (5, 11), (7, 27), (7, 13), (9, 19), (4, 15), (6, 31)] ++
  [(4, 3), (8, 29), (5, 23), (8, 31), (6, 25), (6, 11), (2, 1), (9, 21),
   (7, 19), (4, 15), (8, 15), (8, 21), (8, 29), (4, 13), (6, 23)]

/-- The 137 pairs of the chain ROM (R35, R214): pairs 63 to 135 are (5, 31) each. -/
def chainRom : List (Nat × Nat) := chainHead ++ List.replicate 73 (5, 31) ++ [(2, 3)]

/-- n table entries from t on, each the one before times xx (R216). -/
def powersFrom (xx : Nat) : Nat → Nat → List Nat
  | 0, _ => []
  | n + 1, t => t :: powersFrom xx n (mmul t xx)

/-- The 16-entry odd-power table T of P34: T[i] = Mont(u^(2i+1)) (R216). -/
def oddPowers (x : Nat) : List Nat := powersFrom (mmul x x) 16 x

/-- T[(m − 1) / 2], the table entry for the odd exponent m (R216). -/
def oddPower (table : List Nat) (m : Nat) : Nat := table.getD ((m - 1) / 2) 0

/-- One step of the P34 sequencer: s squarings, then one multiplication (R216). -/
def chainStep (table : List Nat) (acc : Nat) (sm : Nat × Nat) : Nat :=
  mmul (squareTimes sm.1 acc) (oddPower table sm.2)

/-- The P34 procedure (R216): x ↦ x^((p−3)/4) on Montgomery forms. -/
def p34 (x : Nat) : Nat :=
  chainRom.foldl (chainStep (oddPowers x)) (oddPower (oddPowers x) chainInit)

/-- Inversion: square, P34, square, multiply by x (R202). -/
def invP (x : Nat) : Nat := mmul (mmul (p34 (mmul x x)) (p34 (mmul x x))) x

/-- Square root: x · P34(x) (R204). -/
def sqrtP (x : Nat) : Nat := mmul x (p34 x)

end Sys2Proof.Machine
end

