-- ==== Sys2Proof/Syntax.lean ====
section
/-! DEFINITION. The commands of the P751-FAU: one constructor for each row of the opcode map (R105). -/

namespace Sys2Proof

/-- A command with its operands decoded (R101 to R105). Register operands are register numbers of their
class; `k` and `c` are the imm8 field (R103), limited by `Instr.wf`. -/
inductive Instr
  /-- MULW dd, fa, fb (R140) -/
  | mulw (d : DReg) (a b : FReg)
  /-- REDC fd, da (R142) -/
  | redc (d : FReg) (a : DReg)
  /-- ADDL fd, fa, fb (R144) -/
  | addl (d a b : FReg)
  /-- DADDL dd, da, db (R146) -/
  | daddl (d a b : DReg)
  /-- DSUBL dd, da, db (R148) -/
  | dsubl (d a b : DReg)
  /-- SRED fd (R150) -/
  | sred (d : FReg)
  /-- FMUL fd, fa, fb (R192) -/
  | fmul (d a b : FReg)
  /-- FSQR fd, fa (R194) -/
  | fsqr (d a : FReg)
  /-- FPOW2K fd, fa, k (R196) -/
  | fpow2k (d a : FReg) (k : BitVec 8)
  /-- FADD fd, fa, fb (R198) -/
  | fadd (d a b : FReg)
  /-- FSUB fd, fa, fb (R200) -/
  | fsub (d a b : FReg)
  /-- FINV fd, fa (R202) -/
  | finv (d a : FReg)
  /-- FSQRT fd, fa (R204) -/
  | fsqrt (d a : FReg)
  /-- FP34 fd, fa (R206) -/
  | fp34 (d a : FReg)
  /-- FSETU fd (R190) -/
  | fsetu (d : FReg)
  /-- FVEQ fa, fb (R208) -/
  | fveq (a b : FReg)
  /-- FMOV fd, fa (R210) -/
  | fmov (d a : FReg)
  /-- FLDC fd, c (R212) -/
  | fldc (d : FReg) (c : BitVec 8)
  /-- EMUL ed, ea, eb (R250) -/
  | emul (d a b : EPair)
  /-- ESQR ed, ea (R252) -/
  | esqr (d a : EPair)
  /-- EADD ed, ea, eb (R254) -/
  | eadd (d a b : EPair)
  /-- ESUB ed, ea, eb (R256) -/
  | esub (d a b : EPair)
  /-- EINV ed, ea (R258) -/
  | einv (d a : EPair)
  /-- EVEQ ea, eb (R260) -/
  | eveq (a b : EPair)
  deriving DecidableEq, Repr

end Sys2Proof
end

