-- ==== Sys2Proof/WellFormed.lean ====
section
/-! DEFINITION. Which commands the decoder can accept: the two operand limits of R103 and R108.
Every register number of its class names a register, so nothing else is checked (R108). -/

namespace Sys2Proof

/-- The operand check of R108: FPOW2K needs k ≥ 1, FLDC needs c ≤ 4. -/
def Instr.wf : Instr → Bool
  | .fpow2k _ _ k => k != 0
  | .fldc _ c => c.toNat ≤ 4
  | .mulw _ _ _ | .redc _ _ | .addl _ _ _ | .daddl _ _ _ | .dsubl _ _ _ | .sred _
  | .fmul _ _ _ | .fsqr _ _ | .fadd _ _ _ | .fsub _ _ _ | .finv _ _ | .fsqrt _ _ | .fp34 _ _
  | .fsetu _ | .fveq _ _ | .fmov _ _
  | .emul _ _ _ | .esqr _ _ | .eadd _ _ _ | .esub _ _ _ | .einv _ _ | .eveq _ _ => true

end Sys2Proof
end

