-- ==== Sys2Proof/Decode.lean ====
section
/-! DEFINITION. The decoder of command words (R100 to R108, R120) and, after it, the encoder. -/

namespace Sys2Proof

/-- Why the decoder refuses a command write: causes 1, 2 and 3 of R282, in the order of R120. -/
inductive DecodeError
  /-- OP names no row of R105 (R106). -/
  | illegalOpcode
  /-- a bit fixed by the row differs, or v[63:32] ≠ 0 (R107). -/
  | reservedField
  /-- FPOW2K with k = 0, or FLDC with c > 4 (R108). -/
  | badOperand
  deriving DecidableEq, Repr

/-- One row of the opcode map (R105): the bits that are fixed, their values, and the command that the
fields of a matching word name. -/
structure Row where
  mask : CmdWord
  bits : CmdWord
  build : CmdWord → Instr

/-- OP = CW[31:26] (R101). -/
def fieldOp (w : CmdWord) : BitVec 6 := w.extractLsb' 26 6
/-- d = CW[25:22] (R101). -/
def fieldD (w : CmdWord) : BitVec 4 := w.extractLsb' 22 4
/-- a = CW[21:18] (R101). -/
def fieldA (w : CmdWord) : BitVec 4 := w.extractLsb' 18 4
/-- b = CW[17:14] (R101). -/
def fieldB (w : CmdWord) : BitVec 4 := w.extractLsb' 14 4
/-- imm8 = CW[7:0], unsigned (R103). -/
def fieldImm (w : CmdWord) : BitVec 8 := w.extractLsb' 0 8

/-- Class F: all four bits of the field (R102). -/
def fregOf (x : BitVec 4) : FReg := x.toFin
/-- Class D: bits 1:0 of the field (R102). -/
def dregOf (x : BitVec 4) : DReg := (x.extractLsb' 0 2).toFin
/-- Class E: bits 2:0 of the field (R102). -/
def epairOf (x : BitVec 4) : EPair := (x.extractLsb' 0 3).toFin

/-- The opcode map of R105, by OP. An OP without a row is reserved (R106). -/
def rowOf (op : Nat) : Option Row :=
  match op with
  | 0x01 => some ⟨0xff003fff, 0x04000000, fun w => .mulw (dregOf (fieldD w)) (fregOf (fieldA w)) (fregOf (fieldB w))⟩
  | 0x02 => some ⟨0xfc33ffff, 0x08000000, fun w => .redc (fregOf (fieldD w)) (dregOf (fieldA w))⟩
  | 0x03 => some ⟨0xfc003fff, 0x0c000000, fun w => .addl (fregOf (fieldD w)) (fregOf (fieldA w)) (fregOf (fieldB w))⟩
  | 0x04 => some ⟨0xff333fff, 0x10000000, fun w => .daddl (dregOf (fieldD w)) (dregOf (fieldA w)) (dregOf (fieldB w))⟩
  | 0x05 => some ⟨0xff333fff, 0x14000000, fun w => .dsubl (dregOf (fieldD w)) (dregOf (fieldA w)) (dregOf (fieldB w))⟩
  | 0x06 => some ⟨0xfc3fffff, 0x18000000, fun w => .sred (fregOf (fieldD w))⟩
  | 0x08 => some ⟨0xfc003fff, 0x20000000, fun w => .fmul (fregOf (fieldD w)) (fregOf (fieldA w)) (fregOf (fieldB w))⟩
  | 0x09 => some ⟨0xfc03ffff, 0x24000000, fun w => .fsqr (fregOf (fieldD w)) (fregOf (fieldA w))⟩
  | 0x0A => some ⟨0xfc03ff00, 0x28000000, fun w => .fpow2k (fregOf (fieldD w)) (fregOf (fieldA w)) (fieldImm w)⟩
  | 0x0B => some ⟨0xfc003fff, 0x2c000000, fun w => .fadd (fregOf (fieldD w)) (fregOf (fieldA w)) (fregOf (fieldB w))⟩
  | 0x0C => some ⟨0xfc003fff, 0x30000000, fun w => .fsub (fregOf (fieldD w)) (fregOf (fieldA w)) (fregOf (fieldB w))⟩
  | 0x0D => some ⟨0xfc03ffff, 0x34000000, fun w => .finv (fregOf (fieldD w)) (fregOf (fieldA w))⟩
  | 0x0E => some ⟨0xfc03ffff, 0x38000000, fun w => .fsqrt (fregOf (fieldD w)) (fregOf (fieldA w))⟩
  | 0x0F => some ⟨0xfc03ffff, 0x3c000000, fun w => .fp34 (fregOf (fieldD w)) (fregOf (fieldA w))⟩
  | 0x10 => some ⟨0xfc3fffff, 0x40000000, fun w => .fsetu (fregOf (fieldD w))⟩
  | 0x11 => some ⟨0xffc03fff, 0x44000000, fun w => .fveq (fregOf (fieldA w)) (fregOf (fieldB w))⟩
  | 0x12 => some ⟨0xfc03ffff, 0x48000000, fun w => .fmov (fregOf (fieldD w)) (fregOf (fieldA w))⟩
  | 0x13 => some ⟨0xfc3fff00, 0x4c000000, fun w => .fldc (fregOf (fieldD w)) (fieldImm w)⟩
  | 0x18 => some ⟨0xfe223fff, 0x60000000, fun w => .emul (epairOf (fieldD w)) (epairOf (fieldA w)) (epairOf (fieldB w))⟩
  | 0x19 => some ⟨0xfe23ffff, 0x64000000, fun w => .esqr (epairOf (fieldD w)) (epairOf (fieldA w))⟩
  | 0x1A => some ⟨0xfe223fff, 0x68000000, fun w => .eadd (epairOf (fieldD w)) (epairOf (fieldA w)) (epairOf (fieldB w))⟩
  | 0x1B => some ⟨0xfe223fff, 0x6c000000, fun w => .esub (epairOf (fieldD w)) (epairOf (fieldA w)) (epairOf (fieldB w))⟩
  | 0x1C => some ⟨0xfe23ffff, 0x70000000, fun w => .einv (epairOf (fieldD w)) (epairOf (fieldA w))⟩
  | 0x1D => some ⟨0xffe23fff, 0x74000000, fun w => .eveq (epairOf (fieldA w)) (epairOf (fieldB w))⟩
  | _ => none

/-- The decode of a 64-bit write to CMD, its checks in the order of R120 (the BUSY check stands with the
host access). -/
def decode (v : Limb) : Except DecodeError Instr :=
  let cw := v.extractLsb' 0 32
  match rowOf (fieldOp cw).toNat with
  | none => .error .illegalOpcode
  | some row =>
    if v.extractLsb' 32 32 ≠ 0 ∨ cw &&& row.mask ≠ row.bits then .error .reservedField
    else if (row.build cw).wf then .ok (row.build cw)
    else .error .badOperand

/-- The decoder on an instruction of the opcode table: `w` is the command word, bit 0 its least
significant bit, and the bits above `nbits` are 0, the high half of the CMD write among them (R100). -/
def decodeTableWord (nbits w : Nat) : Option Instr :=
  match decode (BitVec.ofNat 64 (w % 2 ^ nbits)) with
  | .ok i => some i
  | .error _ => none

/-- A command word from its fields (R101); the reserved bits 13:8 are 0. -/
def assembleFields (op : BitVec 6) (d a b : BitVec 4) (imm : BitVec 8) : CmdWord :=
  op ++ d ++ a ++ b ++ 0#6 ++ imm

/-- The register field of an F register (R102). -/
def ofFreg (i : FReg) : BitVec 4 := BitVec.ofNat 4 i.val
/-- The register field of a D register: bits 3:2 are 0 (R102). -/
def ofDreg (i : DReg) : BitVec 4 := BitVec.ofNat 4 i.val
/-- The register field of an E pair: bit 3 is 0 (R102). -/
def ofEpair (i : EPair) : BitVec 4 := BitVec.ofNat 4 i.val

/-- The command word of a command (R101 to R105). -/
def encode : Instr → CmdWord
  | .mulw d a b => assembleFields 0x01 (ofDreg d) (ofFreg a) (ofFreg b) 0
  | .redc d a => assembleFields 0x02 (ofFreg d) (ofDreg a) 0 0
  | .addl d a b => assembleFields 0x03 (ofFreg d) (ofFreg a) (ofFreg b) 0
  | .daddl d a b => assembleFields 0x04 (ofDreg d) (ofDreg a) (ofDreg b) 0
  | .dsubl d a b => assembleFields 0x05 (ofDreg d) (ofDreg a) (ofDreg b) 0
  | .sred d => assembleFields 0x06 (ofFreg d) 0 0 0
  | .fmul d a b => assembleFields 0x08 (ofFreg d) (ofFreg a) (ofFreg b) 0
  | .fsqr d a => assembleFields 0x09 (ofFreg d) (ofFreg a) 0 0
  | .fpow2k d a k => assembleFields 0x0A (ofFreg d) (ofFreg a) 0 k
  | .fadd d a b => assembleFields 0x0B (ofFreg d) (ofFreg a) (ofFreg b) 0
  | .fsub d a b => assembleFields 0x0C (ofFreg d) (ofFreg a) (ofFreg b) 0
  | .finv d a => assembleFields 0x0D (ofFreg d) (ofFreg a) 0 0
  | .fsqrt d a => assembleFields 0x0E (ofFreg d) (ofFreg a) 0 0
  | .fp34 d a => assembleFields 0x0F (ofFreg d) (ofFreg a) 0 0
  | .fsetu d => assembleFields 0x10 (ofFreg d) 0 0 0
  | .fveq a b => assembleFields 0x11 0 (ofFreg a) (ofFreg b) 0
  | .fmov d a => assembleFields 0x12 (ofFreg d) (ofFreg a) 0 0
  | .fldc d c => assembleFields 0x13 (ofFreg d) 0 0 c
  | .emul d a b => assembleFields 0x18 (ofEpair d) (ofEpair a) (ofEpair b) 0
  | .esqr d a => assembleFields 0x19 (ofEpair d) (ofEpair a) 0 0
  | .eadd d a b => assembleFields 0x1A (ofEpair d) (ofEpair a) (ofEpair b) 0
  | .esub d a b => assembleFields 0x1B (ofEpair d) (ofEpair a) (ofEpair b) 0
  | .einv d a => assembleFields 0x1C (ofEpair d) (ofEpair a) 0 0
  | .eveq a b => assembleFields 0x1D 0 (ofEpair a) (ofEpair b) 0

/-- The opcode of a command (R105). -/
def opcodeOf (i : Instr) : BitVec 6 := fieldOp (encode i)

end Sys2Proof
end

