-- ==== Sys2Proof/Machine/State.lean ====
section
/-! DEFINITION. The architectural state of the P751-FAU (10_state.md), the outside world's events and
answers, and the state after reset (R320). -/

namespace Sys2Proof.Machine

/-- CAUSE.CODE (R44, R282). -/
inductive CauseCode
  /-- 0 NONE: no rejection since CAUSE was last cleared. -/
  | noCause
  /-- 1 ILLEGAL_OPCODE -/
  | illegalOpcode
  /-- 2 RESERVED_FIELD -/
  | reservedField
  /-- 3 BAD_OPERAND -/
  | badOperand
  /-- 4 BUSY_WRITE -/
  | busyWrite
  /-- 5 BAD_ACCESS -/
  | badAccess
  deriving DecidableEq, Repr

/-- The fields of CAUSE (R44); its reserved bits read 0 and have no storage. -/
structure Cause where
  code : CauseCode
  offset : Offset
  cmdWord : CmdWord
  deriving DecidableEq, Repr

/-- The width of a host access (R73): only 64 bits is legal. -/
inductive Width
  | w8 | w16 | w32 | w64 | w128
  deriving DecidableEq, Repr

/-- One event of the outside world, as the unit's host port and reset input see it (R30, R80, R320), or a
turn of the unit. Offsets are from BASE (R13). -/
inductive HostEvent
  /-- a host read -/
  | read (width : Width) (off : Offset)
  /-- a host write; `v` is the data of a 64-bit write (a write of another width is refused, R73) -/
  | write (width : Width) (off : Offset) (v : Limb)
  /-- an assertion of `rst`, one atomic step (R320) -/
  | hardReset
  /-- the unit takes its completion step before the host's next event (R288, log 2) -/
  | unitTurn
  deriving DecidableEq, Repr

/-- What the unit answers to one host access (log 6, log 16). -/
inductive BusResponse
  /-- a legal read returns data -/
  | readData (v : Limb)
  /-- a bad read returns the data 0 with a bus error (R73) -/
  | readError (v : Limb)
  /-- a write of legal width and alignment, whether or not it is rejected with BUSY_WRITE or a decode cause -/
  | writeAck
  /-- a bad write returns a bus error (R73) -/
  | writeError
  deriving DecidableEq, Repr

/-- The state of the unit, and the host port beside it. The fields `f` to `inflight` are the spec's
(R31, R33, R37, R42, R44, R46, R48, R50); `tick`, `inputs` and `responses` are the model's own
(log 5, log 2, log 6). STATUS.BUSY is not stored: it is `inflight ≠ none` (R50, log 8). -/
structure State where
  /-- the F register file (R31) -/
  f : Vector FWord 16
  /-- the D register file (R33) -/
  d : Vector DWord 4
  /-- the EQ flag, STATUS.EQ (R37) -/
  eq : Bool
  /-- STATUS.DONE (R42) -/
  done : Bool
  /-- STATUS.ERR (R42) -/
  err : Bool
  /-- CAUSE (R44) -/
  cause : Cause
  /-- IMM (R46) -/
  imm : Limb
  /-- CTRL.IE (R48) -/
  ie : Bool
  /-- the command in flight (R50) -/
  inflight : Option Instr
  /-- the model's own: the number of steps taken, from which free values are drawn (log 5) -/
  tick : Nat
  /-- the model's own: the outside world's next events, oldest first (log 2) -/
  inputs : List HostEvent
  /-- the model's own: the answers given on the host port, oldest first (log 6) -/
  responses : List BusResponse
  deriving DecidableEq, Repr

/-- Why the machine stops. No accepted command ever faults (R282, R284). -/
inductive Fault
  /-- Raised by the meanings of FPOW2K and FLDC on a command that is not well formed (k = 0, c > 4). The
  decoder never accepts such a command (R108), so no run reaches it (log 14). Safe: the model stops. -/
  | illFormedCommand
  deriving DecidableEq, Repr

/-- Why an instruction has no meaning. -/
inductive Refusal
  /-- Raised by `exec` alone, for a command not modelled yet. Safe: the model stops. -/
  | notModelled (mnemonic : String)
  deriving DecidableEq, Repr

/-- What a step or a meaning answers. -/
abbrev Answer := Host.Outcome State Fault Refusal

/-- CAUSE after reset (R44). -/
def Cause.zero : Cause := { code := .noCause, offset := 0, cmdWord := 0 }

/-- The state right after a hard reset (R320): every register 0, no command in flight. The spec gives a
value for every register; the model's own three fields start at 0 and empty (log 2, log 5, log 6). -/
def State.reset : State where
  f := Vector.replicate 16 0
  d := Vector.replicate 4 0
  eq := false
  done := false
  err := false
  cause := Cause.zero
  imm := 0
  ie := false
  inflight := none
  tick := 0
  inputs := []
  responses := []

end Sys2Proof.Machine
end

