-- ==== Sys2Proof/Machine/Ops.lean ====
section
/-! DEFINITION. The named operations on the state: the register files, the command slot, rejection and its
clearing, reset, and the register window as a map of offsets and as words and bytes. -/

namespace Sys2Proof.Machine

/-! ### Register files (R11, R31 to R33) -/

/-- F[i] (R11). -/
def State.getF (s : State) (i : FReg) : FWord := s.f[i]

/-- F[i] <- v (R11). -/
def State.setF (s : State) (i : FReg) (v : FWord) : State := { s with f := s.f.set i.val v i.isLt }

/-- D[i] (R11). -/
def State.getD (s : State) (i : DReg) : DWord := s.d[i]

/-- D[i] <- v (R11). -/
def State.setD (s : State) (i : DReg) (v : DWord) : State := { s with d := s.d.set i.val v i.isLt }

/-- F[2j], the real coordinate of E[j] (R32). -/
def reReg (j : EPair) : FReg := ⟨2 * j.val, by omega⟩

/-- F[2j+1], the imaginary coordinate of E[j] (R32). -/
def imReg (j : EPair) : FReg := ⟨2 * j.val + 1, by omega⟩

/-- E[j] <- (re, im), one indivisible step (R11). -/
def State.setE (s : State) (j : EPair) (re im : FWord) : State :=
  (s.setF (reReg j) re).setF (imReg j) im

/-- EQ <- b (R11, R37). -/
def State.setEq (s : State) (b : Bool) : State := { s with eq := b }

/-! ### The command slot (R50, R120) -/

/-- STATUS.BUSY: 1 exactly when a command is in flight (R50). -/
def State.busy (s : State) : Bool := s.inflight.isSome

/-- The acceptance of a decoded command (R120): inflight <- some i, so BUSY = 1, and DONE <- 0. -/
def State.accept (s : State) (i : Instr) : State := { s with inflight := some i, done := false }

/-- Parts 2 to 4 of the completion step (R50): inflight <- none, BUSY <- 0, DONE <- 1. -/
def State.finish (s : State) : State := { s with inflight := none, done := true }

/-- The level output irq = CTRL.IE AND STATUS.DONE (R300). -/
def State.irq (s : State) : Bool := s.ie && s.done

/-! ### Rejection, the unit's only error mechanism (R14, R286) -/

/-- Causes 1 to 3 belong to the decoder: they record the command word and set DONE (R286). -/
def CauseCode.isDecode : CauseCode → Bool
  | .illegalOpcode | .reservedField | .badOperand => true
  | .noCause | .busyWrite | .badAccess => false

/-- The cause of a decode refusal (R282). -/
def causeOfDecode : DecodeError → CauseCode
  | .illegalOpcode => .illegalOpcode
  | .reservedField => .reservedField
  | .badOperand => .badOperand

/-- CAUSE as a decode rejection of the command word `cw` records it (R44, R286). -/
def Cause.ofCommand (e : DecodeError) (cw : CmdWord) : Cause :=
  { code := causeOfDecode e, offset := 0, cmdWord := cw }

/-- CAUSE as a BUSY_WRITE or BAD_ACCESS rejection at window offset `o` records it (R44, R286). -/
def Cause.ofAccess (c : CauseCode) (o : Offset) : Cause :=
  { code := c, offset := o, cmdWord := 0 }

/-- `raise Reject(cause, info)` (R286): CAUSE keeps the first rejection while ERR = 1; ERR <- 1; a decode
rejection sets DONE. Nothing else changes. -/
def State.reject (s : State) (c : Cause) : State :=
  { s with
    cause := if s.err then s.cause else c
    err := true
    done := s.done || c.code.isDecode }

/-- A host write of `v` to STATUS (R42): bit 1 clears DONE, bit 3 clears ERR and CAUSE. This is how the host
acknowledges a rejection (R292). -/
def State.writeStatus (s : State) (v : Limb) : State :=
  { s with
    done := s.done && !v.getLsbD 1
    err := s.err && !v.getLsbD 3
    cause := if v.getLsbD 3 then Cause.zero else s.cause }

/-! ### Reset (R320, R322) -/

/-- What a hard reset and a soft reset do alike: every register to its reset value and the command in
flight discarded (R320, R322). The model's own fields are not the unit's and stay (log 5). -/
def State.resetUnit (s : State) : State :=
  { State.reset with tick := s.tick, inputs := s.inputs, responses := s.responses }

/-- A host write of `v` to CTRL (R48): bit 1 performs a soft reset and bit 0 is then ignored; otherwise
IE <- v[0]. -/
def State.writeCtrl (s : State) (v : Limb) : State :=
  if v.getLsbD 1 then s.resetUnit else { s with ie := v.getLsbD 0 }

/-- A host write of `v` to IMM while BUSY = 0 (R46). -/
def State.setImm (s : State) (v : Limb) : State := { s with imm := v }

/-! ### The register window (R70 to R77) -/

/-- What the 64-bit word at a window offset is (R71). -/
inductive WindowReg
  | fLimb (i : FReg) (j : Fin 12)
  | dLimb (i : DReg) (j : Fin 24)
  | cmd | status | cause | imm | ctrl | ident
  | reserved
  deriving DecidableEq, Repr

/-- The window map (R71). The three low bits of the offset choose a byte inside the word (R72) and do not
change the row. -/
def windowMap (o : Offset) : WindowReg :=
  if h : o.toNat < 0x600 then
    .fLimb ⟨o.toNat / 0x60, by omega⟩ ⟨o.toNat % 0x60 / 8, by omega⟩
  else if o.toNat < 0x800 then .reserved
  else if h : o.toNat < 0xB00 then
    .dLimb ⟨(o.toNat - 0x800) / 0xC0, by omega⟩ ⟨(o.toNat - 0x800) % 0xC0 / 8, by omega⟩
  else if o.toNat / 8 = 0xF00 / 8 then .cmd
  else if o.toNat / 8 = 0xF08 / 8 then .status
  else if o.toNat / 8 = 0xF10 / 8 then .cause
  else if o.toNat / 8 = 0xF18 / 8 then .imm
  else if o.toNat / 8 = 0xF20 / 8 then .ctrl
  else if o.toNat / 8 = 0xF28 / 8 then .ident
  else .reserved

/-- The window offset of a host address, if the address is in the window [BASE, BASE + 4096) (R70). -/
def windowOffset (addr : Nat) : Option Offset :=
  if addr / 4096 = Config.basePage then some (BitVec.ofNat 12 addr) else none

/-- Limb j of a residue: bits [64j+63 : 64j] (R10). -/
def limbOf {n : Nat} (x : BitVec n) (j : Nat) : Limb := x.extractLsb' (64 * j) 64

/-- x with bits [64j+63 : 64j] replaced by v (R76). -/
def setLimb {n : Nat} (x : BitVec n) (j : Nat) (v : Limb) : BitVec n :=
  (x &&& ~~~((BitVec.allOnes 64).setWidth n <<< (64 * j))) ||| (v.setWidth n <<< (64 * j))

/-- The STATUS word (R42): BUSY, DONE, EQ and ERR in bits 0 to 3, the rest 0. -/
def State.statusWord (s : State) : Limb :=
  0#60 ++ BitVec.ofBool s.err ++ BitVec.ofBool s.eq ++ BitVec.ofBool s.done ++ BitVec.ofBool s.busy

/-- CAUSE.CODE as the number of R282. -/
def CauseCode.number : CauseCode → BitVec 8
  | .noCause => 0
  | .illegalOpcode => 1
  | .reservedField => 2
  | .badOperand => 3
  | .busyWrite => 4
  | .badAccess => 5

/-- The CAUSE word (R44): CMDWORD in 63:32, OFFSET in 27:16, CODE in 7:0, the rest 0. -/
def Cause.word (c : Cause) : Limb :=
  c.cmdWord ++ 0#4 ++ c.offset ++ 0#8 ++ c.code.number

/-- The CTRL word (R48): IE in bit 0; SRST and the reserved bits read 0. -/
def State.ctrlWord (s : State) : Limb := (BitVec.ofBool s.ie).setWidth 64

/-- The word of a window register while BUSY = 0 (R40 to R60, R74, R77). -/
def State.windowWord (s : State) : WindowReg → Limb
  | .fLimb i j => limbOf (s.getF i) j
  | .dLimb i j => limbOf (s.getD i) j
  | .cmd => 0
  | .status => s.statusWord
  | .cause => s.cause.word
  | .imm => s.imm
  | .ctrl => s.ctrlWord
  | .ident => Config.idValue
  | .reserved => 0

/-- The byte at window offset `o`: byte o mod 8 of its word, little-endian (R72). This is the model's read
of one byte of the unit's only address space. -/
def State.windowByte (s : State) (o : Offset) : BitVec 8 :=
  (s.windowWord (windowMap o)).extractLsb' (8 * (o.toNat % 8)) 8

/-- What a legal read of a window register returns: an operand limb read while BUSY = 1 returns ANY, drawn
for this step (R77); every other word is its current value (R78). -/
def State.readWindow (s : State) (r : WindowReg) : Limb :=
  match r with
  | .fLimb _ _ | .dLimb _ _ => if s.busy then Config.anyLimb s.tick else s.windowWord r
  | .cmd | .status | .cause | .imm | .ctrl | .ident | .reserved => s.windowWord r

/-! ### The model's own fields (log 2, log 5, log 6) -/

/-- One more step has been taken (log 5). -/
def State.advance (s : State) : State := { s with tick := s.tick + 1 }

/-- The events still to come. -/
def State.withInputs (s : State) (es : List HostEvent) : State := { s with inputs := es }

/-- The unit gives one answer on the host port. -/
def State.respond (s : State) (r : BusResponse) : State := { s with responses := s.responses ++ [r] }

end Sys2Proof.Machine
end

