-- ==== Sys2Proof/Machine/Operands.lean ====
section
/-! DEFINITION. The operand forms of the commands (R102, R103): F registers and E pairs read as integers, the
field-operand domain and its guard (R5, R15), and the constant ROM (R34). -/

namespace Sys2Proof.Machine

/-- F[i] as an unsigned integer (R10). -/
def State.natF (s : State) (i : FReg) : Nat := (s.getF i).toNat

/-- D[i] as an unsigned integer (R10). -/
def State.natD (s : State) (i : DReg) : Nat := (s.getD i).toNat

/-- The real coordinate F[2j] of E[j] as an integer (R32). -/
def State.natRe (s : State) (j : EPair) : Nat := s.natF (reReg j)

/-- The imaginary coordinate F[2j+1] of E[j] as an integer (R32). -/
def State.natIm (s : State) (j : EPair) : Nat := s.natF (imReg j)

/-- An integer as the content of an F register (R10). -/
def toF (v : Nat) : FWord := BitVec.ofNat 768 v

/-- An integer as the content of a D register (R10). -/
def toD (v : Nat) : DWord := BitVec.ofNat 1536 v

/-- dom(x): x lies in the field-operand domain [0, 2p) (R5, R12). -/
abbrev dom (x : Nat) : Prop := x < 2 * Config.p

/-- `require_dom(xs) else ANY(dst)` for one destination (R15): the value when every operand is in the
domain, else the free value of this step for the destination `slot` (log 3). -/
def State.guarded (s : State) (xs : List Nat) (slot : Nat) (v : Nat) : FWord :=
  if ∀ x ∈ xs, dom x then toF v else Config.anyF s.tick slot

/-- The constant ROM (R34): ZERO, R mod p, R² mod p, 1, p. There is no other index (R103). -/
def romValue (c : BitVec 8) : Option Nat :=
  match c.toNat with
  | 0 => some 0
  | 1 => some (Config.radix % Config.p)
  | 2 => some (Config.radix * Config.radix % Config.p)
  | 3 => some 1
  | 4 => some Config.p
  | _ => none

end Sys2Proof.Machine
end

