-- ==== Sys2Proof/Machine/Flags.lean ====
section
/-! DEFINITION. The EQ flag, the unit's only flag (R37): what FVEQ and EVEQ write to it. -/

namespace Sys2Proof.Machine

/-- The comparison of FVEQ: F[a] ≡ F[b] mod p, for every 768-bit value (R208). -/
def State.equalF (s : State) (a b : FReg) : Bool := congruentP (s.natF a) (s.natF b)

/-- The comparison of EVEQ: both coordinates congruent mod p (R260). -/
def State.equalE (s : State) (a b : EPair) : Bool :=
  congruentP (s.natRe a) (s.natRe b) && congruentP (s.natIm a) (s.natIm b)

end Sys2Proof.Machine
end

