-- ==== Sys2Proof/Machine/ExtensionField.lean ====
section
/-! DEFINITION. The meanings of the extension-field unit's commands (42_extension_field.md). A meaning is part 1
of the completion step (R50); the step adds parts 2 to 4. -/

namespace Sys2Proof.Machine

/-- E[dst] <- (re, im) behind the domain guard on all the coordinates read (R240): out of the domain both
destination coordinates receive ANY, drawn independently. -/
def State.writeE (s : State) (xs : List Nat) (dst : EPair) (re im : Nat) : State :=
  s.setE dst (s.guarded xs 0 re) (s.guarded xs 1 im)

/-- The imaginary part of the Karatsuba product (a+bi)(c+di): (b−a)(c−d) + ac + bd, reduced (R250). -/
def karatsubaIm (a b c d : Nat) : Nat := redc (subP b a * subP c d + a * c + b * d)

/-- The real part of the Karatsuba product: the lazy subtract ac − bd, reduced (R250, R148). -/
def karatsubaRe (a b c d : Nat) : Nat := redc (subLazy (a * c) (b * d))

/-- The norm a² + b² of EINV, reduced (R258). -/
def normP (a b : Nat) : Nat := redc (a * a + b * b)

/-- EMUL ed, ea, eb (R250). -/
def execEmul (d a b : EPair) (s : State) : Answer :=
  .next (s.writeE [s.natRe a, s.natIm a, s.natRe b, s.natIm b] d
    (karatsubaRe (s.natRe a) (s.natIm a) (s.natRe b) (s.natIm b))
    (karatsubaIm (s.natRe a) (s.natIm a) (s.natRe b) (s.natIm b)))

/-- ESQR ed, ea (R252): (a+b)(a−b) and 2a·b, the sums lazy and the difference reduced. -/
def execEsqr (d a : EPair) (s : State) : Answer :=
  .next (s.writeE [s.natRe a, s.natIm a] d
    (redc ((s.natRe a + s.natIm a) * subP (s.natRe a) (s.natIm a)))
    (redc ((s.natRe a + s.natRe a) * s.natIm a)))

/-- EADD ed, ea, eb (R254). -/
def execEadd (d a b : EPair) (s : State) : Answer :=
  .next (s.writeE [s.natRe a, s.natIm a, s.natRe b, s.natIm b] d
    (addP (s.natRe a) (s.natRe b)) (addP (s.natIm a) (s.natIm b)))

/-- ESUB ed, ea, eb (R256). -/
def execEsub (d a b : EPair) (s : State) : Answer :=
  .next (s.writeE [s.natRe a, s.natIm a, s.natRe b, s.natIm b] d
    (subP (s.natRe a) (s.natRe b)) (subP (s.natIm a) (s.natIm b)))

/-- EINV ed, ea (R258): a and −b, each times the inverse of the norm. Zero gives zero. -/
def execEinv (d a : EPair) (s : State) : Answer :=
  .next (s.writeE [s.natRe a, s.natIm a] d
    (mmul (s.natRe a) (invP (normP (s.natRe a) (s.natIm a))))
    (mmul (subP 0 (s.natIm a)) (invP (normP (s.natRe a) (s.natIm a)))))

/-- EVEQ ea, eb (R260). -/
def execEveq (a b : EPair) (s : State) : Answer :=
  .next (s.setEq (s.equalE a b))

end Sys2Proof.Machine
end

