-- ==== Sys2Proof/Machine/PrimeField.lean ====
section
/-! DEFINITION. The meanings of the prime-field unit's commands (41_prime_field.md). A meaning is part 1 of the
completion step (R50); the step adds parts 2 to 4. -/

namespace Sys2Proof.Machine

/-- FSETU fd (R190): IMM·R mod p. -/
def execFsetu (d : FReg) (s : State) : Answer :=
  .next (s.setF d (toF (s.imm.toNat * Config.radix % Config.p)))

/-- FMUL fd, fa, fb (R192). -/
def execFmul (d a b : FReg) (s : State) : Answer :=
  .next (s.setF d (s.guarded [s.natF a, s.natF b] 0 (mmul (s.natF a) (s.natF b))))

/-- FSQR fd, fa (R194). -/
def execFsqr (d a : FReg) (s : State) : Answer :=
  .next (s.setF d (s.guarded [s.natF a] 0 (mmul (s.natF a) (s.natF a))))

/-- FPOW2K fd, fa, k (R196): k squarings, k ≥ 1. The decoder accepts no k = 0 (R108, log 14). -/
def execFpow2k (d a : FReg) (k : BitVec 8) (s : State) : Answer :=
  if k = 0 then .fault .illFormedCommand
  else .next (s.setF d (s.guarded [s.natF a] 0 (squareTimes k.toNat (s.natF a))))

/-- FADD fd, fa, fb (R198). -/
def execFadd (d a b : FReg) (s : State) : Answer :=
  .next (s.setF d (s.guarded [s.natF a, s.natF b] 0 (addP (s.natF a) (s.natF b))))

/-- FSUB fd, fa, fb (R200). -/
def execFsub (d a b : FReg) (s : State) : Answer :=
  .next (s.setF d (s.guarded [s.natF a, s.natF b] 0 (subP (s.natF a) (s.natF b))))

/-- FINV fd, fa (R202). An operand ≡ 0 gives 0. -/
def execFinv (d a : FReg) (s : State) : Answer :=
  .next (s.setF d (s.guarded [s.natF a] 0 (invP (s.natF a))))

/-- FSQRT fd, fa (R204). For a non-residue this is the value R204 fixes (log 13). -/
def execFsqrt (d a : FReg) (s : State) : Answer :=
  .next (s.setF d (s.guarded [s.natF a] 0 (sqrtP (s.natF a))))

/-- FP34 fd, fa (R206). -/
def execFp34 (d a : FReg) (s : State) : Answer :=
  .next (s.setF d (s.guarded [s.natF a] 0 (p34 (s.natF a))))

/-- FVEQ fa, fb (R208). -/
def execFveq (a b : FReg) (s : State) : Answer :=
  .next (s.setEq (s.equalF a b))

/-- FMOV fd, fa (R210): all 768 bits, no reduction. -/
def execFmov (d a : FReg) (s : State) : Answer :=
  .next (s.setF d (s.getF a))

/-- FLDC fd, c (R212). The decoder accepts no c > 4 (R108, log 14). -/
def execFldc (d : FReg) (c : BitVec 8) (s : State) : Answer :=
  match romValue c with
  | some v => .next (s.setF d (toF v))
  | none => .fault .illFormedCommand

end Sys2Proof.Machine
end

