-- ==== Sys2Proof/Machine/Residue.lean ====
section
/-! DEFINITION. The meanings of the Montgomery multiplier core's commands (40_residue.md). A meaning is part 1
of the completion step (R50); the step adds parts 2 to 4. -/

namespace Sys2Proof.Machine

/-- MULW dd, fa, fb (R140): the exact double-width product. -/
def execMulw (d : DReg) (a b : FReg) (s : State) : Answer :=
  .next (s.setD d (toD (s.natF a * s.natF b)))

/-- REDC fd, da (R142): D[a] is cleared; F[d] is the reduction, or ANY from p·2^768 on. -/
def execRedc (d : FReg) (a : DReg) (s : State) : Answer :=
  .next ((s.setD a 0).setF d
    (if s.natD a < Config.p * Config.radix then toF (redc (s.natD a)) else Config.anyF s.tick 0))

/-- ADDL fd, fa, fb (R144): the sum modulo 2^768, its carry discarded. -/
def execAddl (d a b : FReg) (s : State) : Answer :=
  .next (s.setF d (s.getF a + s.getF b))

/-- DADDL dd, da, db (R146): the sum modulo 2^1536, its carry discarded. -/
def execDaddl (d a b : DReg) (s : State) : Answer :=
  .next (s.setD d (s.getD a + s.getD b))

/-- DSUBL dd, da, db (R148). -/
def execDsubl (d a b : DReg) (s : State) : Answer :=
  .next (s.setD d (toD (subLazy (s.natD a) (s.natD b))))

/-- SRED fd (R150): one conditional subtraction of p, in place. -/
def execSred (d : FReg) (s : State) : Answer :=
  .next (s.setF d (toF (strongReduce (s.natF d))))

end Sys2Proof.Machine
end

