-- ==== Sys2Proof/Machine/Dispatch.lean ====
section
/-! DEFINITION. The dispatch: one arm per command, in the order of the opcode map (R105). -/

namespace Sys2Proof.Machine

def exec (i : Instr) (s : State) : Host.Outcome State Fault Refusal :=
  match i with
  | .mulw d a b => Sys2Proof.Machine.execMulw d a b s
  | .redc d a => Sys2Proof.Machine.execRedc d a s
  | .addl d a b => Sys2Proof.Machine.execAddl d a b s
  | .daddl d a b => Sys2Proof.Machine.execDaddl d a b s
  | .dsubl d a b => Sys2Proof.Machine.execDsubl d a b s
  | .sred d => Sys2Proof.Machine.execSred d s
  | .fmul d a b => Sys2Proof.Machine.execFmul d a b s
  | .fsqr d a => Sys2Proof.Machine.execFsqr d a s
  | .fpow2k d a k => Sys2Proof.Machine.execFpow2k d a k s
  | .fadd d a b => Sys2Proof.Machine.execFadd d a b s
  | .fsub d a b => Sys2Proof.Machine.execFsub d a b s
  | .finv d a => Sys2Proof.Machine.execFinv d a s
  | .fsqrt d a => Sys2Proof.Machine.execFsqrt d a s
  | .fp34 d a => Sys2Proof.Machine.execFp34 d a s
  | .fsetu d => Sys2Proof.Machine.execFsetu d s
  | .fveq a b => Sys2Proof.Machine.execFveq a b s
  | .fmov d a => Sys2Proof.Machine.execFmov d a s
  | .fldc d c => Sys2Proof.Machine.execFldc d c s
  | .emul d a b => Sys2Proof.Machine.execEmul d a b s
  | .esqr d a => Sys2Proof.Machine.execEsqr d a s
  | .eadd d a b => Sys2Proof.Machine.execEadd d a b s
  | .esub d a b => Sys2Proof.Machine.execEsub d a b s
  | .einv d a => Sys2Proof.Machine.execEinv d a s
  | .eveq a b => Sys2Proof.Machine.execEveq a b s

end Sys2Proof.Machine
end

