-- ==== Sys2Proof/Machine/Window.lean ====
section
/-! DEFINITION. The host's accesses to the register window (20_memory.md, R40 to R60, R120) and the other events
of the outside world. -/

namespace Sys2Proof.Machine

/-- A legal host access is 64 bits wide and at a multiple of 8 (R73). -/
def legalAccess (width : Width) (o : Offset) : Bool :=
  width == .w64 && o.toNat % 8 == 0

/-- A host write of `v` to CMD (R120): BUSY_WRITE while a command is in flight, else the decode accepts or
rejects it. -/
def State.writeCmd (s : State) (v : Limb) : State :=
  if s.busy then s.reject (Cause.ofAccess .busyWrite 0xF00)
  else
    match decode v with
    | .ok i => s.accept i
    | .error e => s.reject (Cause.ofCommand e (v.extractLsb' 0 32))

/-- A legal host write of `v` at offset `o` (R71): operand limbs and IMM only while BUSY = 0 (R76, R78);
reserved offsets, CAUSE and ID ignore it (R74). -/
def State.writeWindow (s : State) (o : Offset) (v : Limb) : State :=
  match windowMap o with
  | .fLimb i j =>
    if s.busy then s.reject (Cause.ofAccess .busyWrite o) else s.setF i (setLimb (s.getF i) j.val v)
  | .dLimb i j =>
    if s.busy then s.reject (Cause.ofAccess .busyWrite o) else s.setD i (setLimb (s.getD i) j.val v)
  | .cmd => s.writeCmd v
  | .status => s.writeStatus v
  | .imm => if s.busy then s.reject (Cause.ofAccess .busyWrite o) else s.setImm v
  | .ctrl => s.writeCtrl v
  | .cause | .ident | .reserved => s

/-- One host read: MemRead (R13, R73, R77). -/
def State.hostRead (s : State) (width : Width) (o : Offset) : State :=
  if legalAccess width o then s.respond (.readData (s.readWindow (windowMap o)))
  else (s.reject (Cause.ofAccess .badAccess o)).respond (.readError 0)

/-- One host write: MemWrite (R13, R73). Only a bad access is answered with a bus error (log 16). -/
def State.hostWrite (s : State) (width : Width) (o : Offset) (v : Limb) : State :=
  if legalAccess width o then (s.writeWindow o v).respond .writeAck
  else (s.reject (Cause.ofAccess .badAccess o)).respond .writeError

end Sys2Proof.Machine
end

