-- ==== Sys2Proof/Machine/Unit.lean ====
section
/-! DEFINITION. What one step of the machine can be: the unit's completion step (R50), or one event of the
outside world (R30, R80). -/

namespace Sys2Proof.Machine

/-- The unit's turn: the completion step of the command in flight, its rule and then BUSY <- 0, DONE <- 1
(R50). With no command in flight the unit does nothing (log 15). -/
def unitStep (s : State) : Answer :=
  match s.inflight with
  | none => .next s
  | some i =>
    match exec i s with
    | .next t => .next t.finish
    | .fault r => .fault r
    | .refused r => .refused r

/-- One event of the outside world, atomic against the completion step (R80); `unitTurn` lets the unit
complete before the host's next event (R288, log 2). -/
def eventStep (e : HostEvent) (s : State) : Answer :=
  match e with
  | .read width o => .next (s.hostRead width o)
  | .write width o v => .next (s.hostWrite width o v)
  | .hardReset => .next s.resetUnit
  | .unitTurn => unitStep s

/-- The next agent's step: the first event still to come, or the unit when there is none, so that an accepted
command always completes (R50, R80, log 2). -/
def agentStep (s : State) : Answer :=
  match s.inputs with
  | [] => unitStep s
  | e :: rest => eventStep e (s.withInputs rest)

/-- The state in which the very next step runs the instruction of `w` (log 7): the instruction accepted as by
a write to CMD, and the unit's turn. A word that the decoder refuses is the host's next write to CMD. -/
def State.loadWord (s : State) (nbits w : Nat) : State :=
  match decodeTableWord nbits w with
  | some i => (s.accept i).withInputs (.unitTurn :: s.inputs)
  | none =>
    { s with inflight := none, inputs := .write .w64 0xF00 (BitVec.ofNat 64 (w % 2 ^ nbits)) :: s.inputs }

end Sys2Proof.Machine
end

