-- ==== Sys2Proof/Machine/Step.lean ====
section
/-! DEFINITION. The step of the machine and the placing of an instruction. -/

namespace Sys2Proof.Machine

/-- One step: the step counter of the free values advances (log 5), and the next agent takes its step. -/
def step (s : State) : Host.Outcome State Fault Refusal :=
  agentStep s.advance

/-- The state whose very next step runs the instruction with the bits `w` (log 7). -/
def State.withFetchWord (s : State) (nbits w : Nat) : State :=
  s.loadWord nbits w

end Sys2Proof.Machine
end

