-- ==== Sys2Proof/Machine/Assembler.lean ====
section
/-! DEFINITION. The assembler's view of the commands: their text (R110), the pseudo-instructions (R111), and the
host-program notation (R112). -/

namespace Sys2Proof.Machine

/-- A register operand: its class letter and its number (R110). -/
def regName (letter : String) (n : Nat) : String := letter ++ toString n

/-- A command as assembler text: mnemonic and operands in the order of the format (R104, R110). -/
def assembly : Instr → String
  | .mulw d a b => "MULW " ++ regName "d" d ++ ", " ++ regName "f" a ++ ", " ++ regName "f" b
  | .redc d a => "REDC " ++ regName "f" d ++ ", " ++ regName "d" a
  | .addl d a b => "ADDL " ++ regName "f" d ++ ", " ++ regName "f" a ++ ", " ++ regName "f" b
  | .daddl d a b => "DADDL " ++ regName "d" d ++ ", " ++ regName "d" a ++ ", " ++ regName "d" b
  | .dsubl d a b => "DSUBL " ++ regName "d" d ++ ", " ++ regName "d" a ++ ", " ++ regName "d" b
  | .sred d => "SRED " ++ regName "f" d
  | .fmul d a b => "FMUL " ++ regName "f" d ++ ", " ++ regName "f" a ++ ", " ++ regName "f" b
  | .fsqr d a => "FSQR " ++ regName "f" d ++ ", " ++ regName "f" a
  | .fpow2k d a k => "FPOW2K " ++ regName "f" d ++ ", " ++ regName "f" a ++ ", " ++ toString k.toNat
  | .fadd d a b => "FADD " ++ regName "f" d ++ ", " ++ regName "f" a ++ ", " ++ regName "f" b
  | .fsub d a b => "FSUB " ++ regName "f" d ++ ", " ++ regName "f" a ++ ", " ++ regName "f" b
  | .finv d a => "FINV " ++ regName "f" d ++ ", " ++ regName "f" a
  | .fsqrt d a => "FSQRT " ++ regName "f" d ++ ", " ++ regName "f" a
  | .fp34 d a => "FP34 " ++ regName "f" d ++ ", " ++ regName "f" a
  | .fsetu d => "FSETU " ++ regName "f" d
  | .fveq a b => "FVEQ " ++ regName "f" a ++ ", " ++ regName "f" b
  | .fmov d a => "FMOV " ++ regName "f" d ++ ", " ++ regName "f" a
  | .fldc d c => "FLDC " ++ regName "f" d ++ ", " ++ toString c.toNat
  | .emul d a b => "EMUL " ++ regName "e" d ++ ", " ++ regName "e" a ++ ", " ++ regName "e" b
  | .esqr d a => "ESQR " ++ regName "e" d ++ ", " ++ regName "e" a
  | .eadd d a b => "EADD " ++ regName "e" d ++ ", " ++ regName "e" a ++ ", " ++ regName "e" b
  | .esub d a b => "ESUB " ++ regName "e" d ++ ", " ++ regName "e" a ++ ", " ++ regName "e" b
  | .einv d a => "EINV " ++ regName "e" d ++ ", " ++ regName "e" a
  | .eveq a b => "EVEQ " ++ regName "e" a ++ ", " ++ regName "e" b

/-- The pseudo-instructions (R111). -/
inductive Pseudo
  | fzero (d : FReg)
  | fone (d : FReg)
  | fneg (d a : FReg)
  | tomont (d a t : FReg)
  | frommont (d a t : FReg)
  | emov (d a : EPair)
  | ezero (d : EPair)
  | eone (d : EPair)
  | fmulw (d a b : FReg) (t : DReg)
  deriving DecidableEq, Repr

/-- The commands a pseudo-instruction stands for, in order (R111). -/
def expand : Pseudo → List Instr
  | .fzero d => [.fldc d 0]
  | .fone d => [.fldc d 1]
  | .fneg d a => [.fldc d 0, .fsub d d a]
  | .tomont d a t => [.fldc t 2, .fmul d a t]
  | .frommont d a t => [.fldc t 3, .fmul d a t]
  | .emov d a => [.fmov (reReg d) (reReg a), .fmov (imReg d) (imReg a)]
  | .ezero d => [.fldc (reReg d) 0, .fldc (imReg d) 0]
  | .eone d => [.fldc (reReg d) 1, .fldc (imReg d) 0]
  | .fmulw d a b t => [.mulw t a b, .redc d t]

/-- The side condition under which the expansion computes what its name says (R111). -/
def sideCondition : Pseudo → Bool
  | .fneg d a => d != a
  | .tomont _ a t | .frommont _ a t => t != a
  | .fzero _ | .fone _ | .emov _ _ | .ezero _ | .eone _ | .fmulw _ _ _ _ => true

/-- The rules of a sequence of commands, one after the other. -/
def execAll : List Instr → State → Answer
  | [], s => .next s
  | i :: rest, s =>
    match exec i s with
    | .next t => execAll rest t
    | .fault r => .fault r
    | .refused r => .refused r

/-- The window offset of limb j of F[i] (R71). -/
def fLimbOffset (i : FReg) (j : Nat) : Offset := BitVec.ofNat 12 (0x60 * i.val + 8 * j)

/-- The window offset of limb j of D[i] (R71). -/
def dLimbOffset (i : DReg) (j : Nat) : Offset := BitVec.ofNat 12 (0x800 + 0xC0 * i.val + 8 * j)

/-- LOADF fi, X: the 12 limbs, limb 0 first (R112). -/
def hostLoadF (i : FReg) (x : FWord) : List HostEvent :=
  (List.range 12).map fun j => .write .w64 (fLimbOffset i j) (limbOf x j)

/-- LOADD di, X: the 24 limbs, limb 0 first (R112). -/
def hostLoadD (i : DReg) (x : DWord) : List HostEvent :=
  (List.range 24).map fun j => .write .w64 (dLimbOffset i j) (limbOf x j)

/-- STOREF fi: reads of the 12 limbs (R112). -/
def hostStoreF (i : FReg) : List HostEvent :=
  (List.range 12).map fun j => .read .w64 (fLimbOffset i j)

/-- ISSUE of a command: W 0xF00, its encoding (R112). -/
def hostIssue (i : Instr) : HostEvent := .write .w64 0xF00 ((encode i).setWidth 64)

/-- One pass of WAIT after the unit has completed: R 0xF08 (R112). The loop itself is the host's. -/
def hostWait : List HostEvent := [.unitTurn, .read .w64 0xF08]

end Sys2Proof.Machine
end

