-- ==== Sys2Proof/Machine/Timing.lean ====
section
/-! DEFINITION. What the spec says of time: the OPEN latency of a command and what it may depend on (R7, R8), and
the operation counts of R344. No step reads these (R344, log 11). -/

namespace Sys2Proof.Machine

/-- LAT(c) for a command in flight in the state `s` (R8, R50): a function of the opcode, and of k for
FPOW2K (R152, R218, R262); of the operand values too for FVEQ and EVEQ alone (R7). -/
def latency (i : Instr) (s : State) : Nat :=
  match i with
  | .fveq a b => Config.latencyVartime (opcodeOf i) [s.getF a, s.getF b]
  | .eveq a b =>
    Config.latencyVartime (opcodeOf i)
      [s.getF (reReg a), s.getF (imReg a), s.getF (reReg b), s.getF (imReg b)]
  | .fpow2k _ _ k => Config.latency (opcodeOf i) k
  | .mulw _ _ _ | .redc _ _ | .addl _ _ _ | .daddl _ _ _ | .dsubl _ _ _ | .sred _
  | .fmul _ _ _ | .fsqr _ _ | .fadd _ _ _ | .fsub _ _ _ | .finv _ _ | .fsqrt _ _ | .fp34 _ _
  | .fsetu _ | .fmov _ _ | .fldc _ _
  | .emul _ _ _ | .esqr _ _ | .eadd _ _ _ | .esub _ _ _ | .einv _ _ => Config.latency (opcodeOf i) 0

/-- The internal operations of a command, by kind (R344). `lazyOps` counts lazy adds, lazy subtracts and
conditional subtractions; `reducedOps` reduced adds and subtracts. -/
structure OpCount where
  products : Nat := 0
  reductions : Nat := 0
  mms : Nat := 0
  lazyOps : Nat := 0
  reducedOps : Nat := 0
  strongReductions : Nat := 0
  compares : Nat := 0
  copies : Nat := 0
  deriving DecidableEq, Repr

/-- The Montgomery multiplications of one P34 run: 1 + 15 for the table, then the squarings and the
multiplications of the chain (R216, R344). -/
def p34Mms : Nat := 1 + 15 + (chainRom.map Prod.fst).sum + chainRom.length

/-- The operation counts of R344. -/
def opCount : Instr → OpCount
  | .mulw _ _ _ => { products := 1 }
  | .redc _ _ => { reductions := 1 }
  | .addl _ _ _ | .daddl _ _ _ | .dsubl _ _ _ | .sred _ => { lazyOps := 1 }
  | .fsetu _ | .fmul _ _ _ | .fsqr _ _ => { mms := 1 }
  | .fpow2k _ _ k => { mms := k.toNat }
  | .fadd _ _ _ | .fsub _ _ _ => { reducedOps := 1 }
  | .fp34 _ _ => { mms := p34Mms }
  | .finv _ _ => { mms := p34Mms + 3 }
  | .fsqrt _ _ => { mms := p34Mms + 1 }
  | .fveq _ _ => { strongReductions := 2, compares := 1 }
  | .fmov _ _ | .fldc _ _ => { copies := 1 }
  | .emul _ _ _ => { products := 3, reductions := 2, reducedOps := 2, lazyOps := 3 }
  | .esqr _ _ => { products := 2, reductions := 2, lazyOps := 2, reducedOps := 1 }
  | .eadd _ _ _ | .esub _ _ _ => { reducedOps := 2 }
  | .einv _ _ =>
    { products := 2, lazyOps := 1, reductions := 1, mms := p34Mms + 3 + 2, reducedOps := 1 }
  | .eveq _ _ => { strongReductions := 4, compares := 2 }

end Sys2Proof.Machine
end

