-- ==== Sys2Proof/Safety.lean ====
section
/-! DEFINITION. The terms claims are made in: logical values of Montgomery forms (R4, R12), the write sets and
frames of the commands (R337), the invariant of the shell, and what may not depend on operand values (R7). -/

namespace Sys2Proof.Machine

/-! ### Montgomery form -/

/-- val(s) = s · R⁻¹ mod p, the logical value of a stored form (R4). -/
def val (s : Nat) : Nat := s * Config.rInv % Config.p

/-- Mont(v) = v · R mod p, the stored canonical form of a logical value (R4). -/
def mont (v : Nat) : Nat := v * Config.radix % Config.p

/-- mpow(s, e): the Montgomery-form power (R12). -/
def mpow (s e : Nat) : Nat := mont (val s ^ e % Config.p)

/-- The exponent that the chain ROM computes: e ← e0, then e ← e·2^s + m for each pair (R214). -/
def chainExponent : Nat := chainRom.foldl (fun e sm => e * 2 ^ sm.1 + sm.2) chainInit

/-! ### Write sets and frames -/

/-- The F registers a command writes (R337). -/
def writesF : Instr → List FReg
  | .redc d _ | .addl d _ _ | .sred d | .fmul d _ _ | .fsqr d _ | .fpow2k d _ _ | .fadd d _ _
  | .fsub d _ _ | .finv d _ | .fsqrt d _ | .fp34 d _ | .fsetu d | .fmov d _ | .fldc d _ => [d]
  | .emul d _ _ | .esqr d _ | .eadd d _ _ | .esub d _ _ | .einv d _ => [reReg d, imReg d]
  | .mulw _ _ _ | .daddl _ _ _ | .dsubl _ _ _ | .fveq _ _ | .eveq _ _ => []

/-- The D registers a command writes (R337). -/
def writesD : Instr → List DReg
  | .mulw d _ _ | .daddl d _ _ | .dsubl d _ _ => [d]
  | .redc _ a => [a]
  | .addl _ _ _ | .sred _ | .fmul _ _ _ | .fsqr _ _ | .fpow2k _ _ _ | .fadd _ _ _ | .fsub _ _ _
  | .finv _ _ | .fsqrt _ _ | .fp34 _ _ | .fsetu _ | .fveq _ _ | .fmov _ _ | .fldc _ _
  | .emul _ _ _ | .esqr _ _ | .eadd _ _ _ | .esub _ _ _ | .einv _ _ | .eveq _ _ => []

/-- Whether a command writes EQ: FVEQ and EVEQ alone do (R37, R337). -/
def writesEq : Instr → Bool
  | .fveq _ _ | .eveq _ _ => true
  | .mulw _ _ _ | .redc _ _ | .addl _ _ _ | .daddl _ _ _ | .dsubl _ _ _ | .sred _
  | .fmul _ _ _ | .fsqr _ _ | .fpow2k _ _ _ | .fadd _ _ _ | .fsub _ _ _ | .finv _ _ | .fsqrt _ _
  | .fp34 _ _ | .fsetu _ | .fmov _ _ | .fldc _ _
  | .emul _ _ _ | .esqr _ _ | .eadd _ _ _ | .esub _ _ _ | .einv _ _ => false

/-- Whether a window register shows a register of the write set. -/
def shows (fs : List FReg) (ds : List DReg) (eqToo : Bool) : WindowReg → Prop
  | .fLimb i _ => i ∈ fs
  | .dLimb i _ => i ∈ ds
  | .status => eqToo = true
  | .cmd | .cause | .imm | .ctrl | .ident | .reserved => False

/-- The shell of `t` is the shell of `s`: DONE, ERR, CAUSE, IMM, IE, the command slot and the model's own
fields agree. -/
def SameShell (s t : State) : Prop :=
  t.done = s.done ∧ t.err = s.err ∧ t.cause = s.cause ∧ t.imm = s.imm ∧ t.ie = s.ie ∧
    t.inflight = s.inflight ∧ t.tick = s.tick ∧ t.inputs = s.inputs ∧ t.responses = s.responses

/-- From `s` to `t` nothing changes but the F registers `fs`, the D registers `ds` and, when `eqToo`, EQ: every
other register, and every byte of the window that shows none of them, is as before. -/
def FrameOf (fs : List FReg) (ds : List DReg) (eqToo : Bool) (s t : State) : Prop :=
  (∀ i, i ∉ fs → t.getF i = s.getF i) ∧ (∀ i, i ∉ ds → t.getD i = s.getD i) ∧
    (eqToo = false → t.eq = s.eq) ∧ SameShell s t ∧
    ∀ o, ¬ shows fs ds eqToo (windowMap o) → t.windowByte o = s.windowByte o

/-! ### The invariant of the shell -/

/-- CAUSE holds what a rejection or a clearing leaves in it (R44, R286): all zero with code 0, a command word
only with a decode code, an offset only with an access code. -/
def Cause.ok (c : Cause) : Prop :=
  (c.code = .noCause → c = Cause.zero) ∧ (c.code.isDecode = true → c.offset = 0) ∧
    (c.code.isDecode = false → c.cmdWord = 0)

/-- While a command is in flight DONE is 0 (R120, R340); CAUSE is nonzero exactly when ERR = 1 (R286, R42); CAUSE
is well shaped (R44); the command in flight is one the decoder accepts (R108, R120). -/
def Inv (s : State) : Prop :=
  (s.busy = true → s.done = false) ∧ (s.err = false ↔ s.cause.code = .noCause) ∧ s.cause.ok ∧
    ∀ i, s.inflight = some i → i.wf = true

/-! ### Field-operand ranges -/

/-- Every F register lies in the field-operand domain [0, 2p) (R5). -/
def AllInDomain (s : State) : Prop := ∀ i, dom (s.natF i)

/-- The field operands a command reads through the domain guard (R180, R240). -/
def guardedOperands : Instr → List FReg
  | .fmul _ a b | .fadd _ a b | .fsub _ a b => [a, b]
  | .fsqr _ a | .fpow2k _ a _ | .finv _ a | .fsqrt _ a | .fp34 _ a => [a]
  | .emul _ a b | .eadd _ a b | .esub _ a b => [reReg a, imReg a, reReg b, imReg b]
  | .esqr _ a | .einv _ a => [reReg a, imReg a]
  | .mulw _ _ _ | .redc _ _ | .addl _ _ _ | .daddl _ _ _ | .dsubl _ _ _ | .sred _
  | .fsetu _ | .fveq _ _ | .fmov _ _ | .fldc _ _ | .eveq _ _ => []

/-- The commands whose result is a reduced field element (R6): all of the PFU and EFU that compute one. FMOV and
FLDC copy a value as it stands (R210, R212), FVEQ and EVEQ write no register. -/
def computesField : Instr → Bool
  | .fmul _ _ _ | .fsqr _ _ | .fpow2k _ _ _ | .fadd _ _ _ | .fsub _ _ _ | .finv _ _ | .fsqrt _ _
  | .fp34 _ _ | .fsetu _ | .emul _ _ _ | .esqr _ _ | .eadd _ _ _ | .esub _ _ _ | .einv _ _ => true
  | .mulw _ _ _ | .redc _ _ | .addl _ _ _ | .daddl _ _ _ | .dsubl _ _ _ | .sred _
  | .fveq _ _ | .fmov _ _ | .fldc _ _ | .eveq _ _ => false

/-! ### What may not depend on operand values (R7) -/

/-- The two states agree on everything but the contents of the operand registers. -/
def SameButOperands (s t : State) : Prop := t.eq = s.eq ∧ SameShell s t

/-- The event does not show the host an operand limb. Only a legal read while BUSY = 0 can: an illegal read
returns 0 (R73), and a read while BUSY = 1 returns ANY, which no law relates to the operands (R77, R82). -/
def readsNoOperand (busy : Bool) : HostEvent → Prop
  | .read w o =>
    legalAccess w o = true → busy = false →
      match windowMap o with
      | .fLimb _ _ | .dLimb _ _ => False
      | .cmd | .status | .cause | .imm | .ctrl | .ident | .reserved => True
  | .write _ _ _ | .hardReset | .unitTurn => True

end Sys2Proof.Machine
end

