-- ==== Sys2Proof/Certificates/Slice0/Obligations.lean ====
section
/-! DEFINITION. The statements for the provers: one definition each, listed in OBLIGATIONS.json. -/

open Sys2Proof Sys2Proof.Machine

/-- For every well-formed command, decoding the CMD write whose low half is its encoding and whose high half is zero
gives exactly that command, with every operand. (30_encoding.md R100, R101, R102, R103, R105, R120) -/
def Obligations.DecodeInvertsEncode : Prop :=
  ∀ i : Instr, i.wf = true → decode ((encode i).setWidth 64) = .ok i

/-- If the decoder accepts a 64-bit CMD write as a command, the command is well formed and the write is its encoding
with a zero high half: no bit of the write is ignored. (30_encoding.md R107, R100, R105, R120) -/
def Obligations.AcceptedWriteIsAnEncoding : Prop :=
  ∀ (v : Limb) (i : Instr), decode v = .ok i → i.wf = true ∧ v = (encode i).setWidth 64

/-- The decoder answers ILLEGAL_OPCODE exactly when OP is 0x00, 0x07, 0x14 to 0x17 or 0x1E to 0x3F, the all-zero
word among them; an idle unit rejects such a CMD write with that cause. (R106) -/
def Obligations.ReservedOpcodesAreIllegal : Prop :=
  (∀ v : Limb, decode v = .error .illegalOpcode ↔
    (v.extractLsb' 26 6).toNat ∈ [0x00, 0x07, 0x14, 0x15, 0x16, 0x17] ∨ 0x1E ≤ (v.extractLsb' 26 6).toNat) ∧
  decode 0 = .error .illegalOpcode ∧
  ∀ (s : State) (v : Limb), s.busy = false → decode v = .error .illegalOpcode →
    s.writeCmd v = s.reject { code := .illegalOpcode, offset := 0, cmdWord := v.extractLsb' 0 32 }

/-- When OP names a row, the decoder answers RESERVED_FIELD exactly when v[63:32] is not zero or a bit of the row's
mask differs from its match, which is exactly when v is the encoding of no command; an idle unit rejects such a
CMD write with that cause. (R107) -/
def Obligations.ReservedFieldsAreRejected : Prop :=
  (∀ (v : Limb) (row : Row), rowOf (v.extractLsb' 26 6).toNat = some row →
    (decode v = .error .reservedField ↔
      v.extractLsb' 32 32 ≠ 0 ∨ v.extractLsb' 0 32 &&& row.mask ≠ row.bits) ∧
    (decode v = .error .reservedField ↔ ∀ i : Instr, v ≠ (encode i).setWidth 64)) ∧
  ∀ (s : State) (v : Limb), s.busy = false → decode v = .error .reservedField →
    s.writeCmd v = s.reject { code := .reservedField, offset := 0, cmdWord := v.extractLsb' 0 32 }

/-- The decoder answers BAD_OPERAND exactly on the encodings of FPOW2K with k = 0 and of FLDC with c > 4, for any
registers; an idle unit rejects such a CMD write with that cause. (R108) -/
def Obligations.BadOperandsAreRejected : Prop :=
  (∀ v : Limb, decode v = .error .badOperand ↔
    (∃ d a, v = (encode (.fpow2k d a 0)).setWidth 64) ∨
    ∃ d c, 4 < c.toNat ∧ v = (encode (.fldc d c)).setWidth 64) ∧
  ∀ (s : State) (v : Limb), s.busy = false → decode v = .error .badOperand →
    s.writeCmd v = s.reject { code := .badOperand, offset := 0, cmdWord := v.extractLsb' 0 32 }

/-- Words that the spec writes out for FMUL, FPOW2K, EMUL, MULW, DADDL, REDC, FVEQ, FLDC and EVEQ decode to those
commands with those operands. (30_encoding.md R110, R105, 40_residue.md R140, R146, 42_extension_field.md R250) -/
def Obligations.SpecExampleWordsDecode : Prop :=
  decode 0x20c48000 = .ok (.fmul 3 1 2) ∧ decode 0x28000005 = .ok (.fpow2k 0 0 5) ∧
  decode 0x6048c000 = .ok (.emul 1 2 3) ∧ decode 0x04048000 = .ok (.mulw 0 1 2) ∧
  decode 0x10804000 = .ok (.daddl 2 0 1) ∧ decode 0x08480000 = .ok (.redc 1 2) ∧
  decode 0x44048000 = .ok (.fveq 1 2) ∧ decode 0x4d400001 = .ok (.fldc 5 1) ∧
  decode 0x74048000 = .ok (.eveq 1 2)

/-- When the decoder reads command i from a word placed by withFetchWord, the next step is exec of i on the accepted
state with one more tick, followed by inflight <- none, BUSY <- 0, DONE <- 1; and from any state with i in
flight whose next event is none or a turn of the unit, the step is the same. The completion step is R50's. What
withFetchWord places (log 7), that an empty event list or the event unitTurn gives the unit its turn (log 2) and
the step counter that each step raises (log 5) are the model's choices, DESIGN CHOICE, and no rule's words.
(10_state.md R50, 30_encoding.md R120, R100) -/
def Obligations.StepRunsTheLoadedCommand : Prop :=
  (∀ (s : State) (w : Nat) (i : Instr), decodeTableWord 32 w = some i →
    step (s.withFetchWord 32 w) =
      match exec i (s.accept i).advance with
      | .next t => .next { t with inflight := none, done := true }
      | .fault r => .fault r
      | .refused r => .refused r) ∧
  ∀ (s : State) (i : Instr) (rest : List HostEvent), s.inflight = some i →
    (s.inputs = [] ∧ rest = [] ∨ s.inputs = .unitTurn :: rest) →
    step s =
      match exec i (s.advance.withInputs rest) with
      | .next t => .next { t with inflight := none, done := true }
      | .fault r => .fault r
      | .refused r => .refused r

/-- When the next event is a host read, a host write or a hard reset, the step is exactly that access or reset; an
idle unit given its turn does nothing but count the step (the model's choice, log 15). (20_memory.md R80,
10_state.md R30, 60_exceptions.md R288) -/
def Obligations.StepTakesOneEvent : Prop :=
  ∀ (s : State) (rest : List HostEvent),
    (∀ w o, s.inputs = .read w o :: rest → step s = .next ((s.advance.withInputs rest).hostRead w o)) ∧
    (∀ w o v, s.inputs = .write w o v :: rest →
      step s = .next ((s.advance.withInputs rest).hostWrite w o v)) ∧
    (s.inputs = .hardReset :: rest → step s = .next (s.advance.withInputs rest).resetUnit) ∧
    (s.inflight = none → s.inputs = .unitTurn :: rest → step s = .next (s.advance.withInputs rest)) ∧
    (s.inflight = none → s.inputs = [] → step s = .next s.advance)

/-- A legal write of v to 0xF00 while busy is BUSY_WRITE; otherwise it is rejected with the cause the decoder names
(illegal opcode, reserved field, bad operand, in that order), or accepted: inflight becomes the command, BUSY 1,
DONE 0 and nothing else of the unit changes; ERR does not matter. In every case the port answers it as an
ordinary write (writeAck): for a refused write that is the model's inference (DEDUCED, log 16, kept in the
model's list of log 6), no rule's words. (30_encoding.md R120, 20_memory.md R73) -/
def Obligations.CommandWriteAcceptsOrRejects : Prop :=
  ∀ (s : State) (v : Limb),
    (s.hostWrite .w64 0xF00 v).responses = s.responses ++ [.writeAck] ∧
    (s.busy = true → s.hostWrite .w64 0xF00 v =
      (s.reject { code := .busyWrite, offset := 0xF00, cmdWord := 0 }).respond .writeAck) ∧
    (s.busy = false →
      match rowOf (v.extractLsb' 26 6).toNat with
      | none => s.hostWrite .w64 0xF00 v =
          (s.reject { code := .illegalOpcode, offset := 0, cmdWord := v.extractLsb' 0 32 }).respond .writeAck
      | some row =>
        if v.extractLsb' 32 32 ≠ 0 ∨ v.extractLsb' 0 32 &&& row.mask ≠ row.bits then
          s.hostWrite .w64 0xF00 v =
            (s.reject { code := .reservedField, offset := 0, cmdWord := v.extractLsb' 0 32 }).respond .writeAck
        else if (v.extractLsb' 26 6 = 0x0A ∧ v.extractLsb' 0 8 = 0) ∨
            (v.extractLsb' 26 6 = 0x13 ∧ 4 < (v.extractLsb' 0 8).toNat) then
          s.hostWrite .w64 0xF00 v =
            (s.reject { code := .badOperand, offset := 0, cmdWord := v.extractLsb' 0 32 }).respond .writeAck
        else ∃ i, v = (encode i).setWidth 64 ∧
          s.hostWrite .w64 0xF00 v =
            { s with inflight := some i, done := false, responses := s.responses ++ [.writeAck] })

/-- Reject sets ERR; CAUSE takes the cause only when ERR was 0; causes 1 to 3 set DONE, causes 4 and 5 leave it;
every operand register, EQ, IMM, IE, the command in flight and the BUSY bit are unchanged. (R286) -/
def Obligations.RejectionEffect : Prop :=
  ∀ (s : State) (c : Cause),
    s.reject c = { s with
      cause := if s.err = true then s.cause else c
      err := true
      done := if c.code = .illegalOpcode ∨ c.code = .reservedField ∨ c.code = .badOperand then true else s.done } ∧
    (s.reject c).busy = s.busy ∧
    (∀ e cw, (Cause.ofCommand e cw).cmdWord = cw ∧ (Cause.ofCommand e cw).offset = 0) ∧
    (∀ o, Cause.ofAccess .busyWrite o = { code := .busyWrite, offset := o, cmdWord := 0 } ∧
      Cause.ofAccess .badAccess o = { code := .badAccess, offset := o, cmdWord := 0 }) ∧
    (∀ w o, (w ≠ .w64 ∨ o.toNat % 8 ≠ 0) →
      s.hostRead w o = (s.reject (Cause.ofAccess .badAccess o)).respond (.readError 0))

/-- After reset no command is in flight, ERR is 0 and CAUSE is all zero, so the invariant of the shell holds.
(70_reset_and_hazards.md R320, 10_state.md R42, R44, R50) -/
def Obligations.InvariantAtReset : Prop :=
  Inv State.reset

/-- From every state that meets it, a step that answers a next state keeps: while a command is in flight DONE is 0;
ERR is 0 exactly when CAUSE.CODE is 0, and CAUSE is then all zero; CAUSE holds a command word only with a decode
code and an offset only with an access code; the command in flight is well formed. (70_reset_and_hazards.md
R340, 60_exceptions.md R286, R292, 10_state.md R42, R44, R50, 30_encoding.md R120) -/
def Obligations.StepKeepsInvariant : Prop :=
  ∀ s t : State, Inv s → step s = .next t → Inv t

/-- From every state that meets the shell invariant Inv (DONE 0 while busy, ERR and CAUSE in agreement, CAUSE well
shaped, the command in flight well formed), whatever the operands and whatever the host does next, a step
answers a next state, never a fault or a refusal. (60_exceptions.md R282, R284, R290) -/
def Obligations.StepNeverStops : Prop :=
  ∀ s : State, Inv s → ∃ t, step s = .next t

/-- A term the decoder can never give, FPOW2K with k = 0 or FLDC with c > 4, stops with the fault illFormedCommand
and no next state. This is the model's choice (log 14), not a rule of the spec. (30_encoding.md R108, R103) -/
def Obligations.IllFormedCommandsFault : Prop :=
  ∀ (s : State) (d a : FReg) (c : BitVec 8), exec (.fpow2k d a 0) s = .fault .illFormedCommand ∧
    (4 < c.toNat → exec (.fldc d c) s = .fault .illFormedCommand)

/-- MULW always answers the state in which D[d] holds the exact product of F[a] and F[b], never overflowing, and
nothing else is changed. (R140) -/
def Obligations.MulwIsExact : Prop :=
  ∀ (d : DReg) (a b : FReg) (s : State),
    encode (.mulw d a b) = assembleFields 0x01 (BitVec.ofNat 4 d.val) (BitVec.ofNat 4 a.val) (BitVec.ofNat 4 b.val) 0 ∧
    ∃ v : DWord, exec (.mulw d a b) s = .next (s.setD d v) ∧ v.toNat = s.natF a * s.natF b ∧
      v.toNat ≤ 2 ^ 1536 - 2 ^ 769 + 1

/-- REDC always answers the state in which D[a] is 0 and F[d] holds a value v, and nothing else is changed; when
D[a] < p*2^768, v is D[a]*inv(R) mod p: the canonical value with v*R congruent to D[a]. From p*2^768 on, v is
unspecified. (R142) -/
def Obligations.RedcReduces : Prop :=
  ∀ (d : FReg) (a : DReg) (s : State),
    encode (.redc d a) = assembleFields 0x02 (BitVec.ofNat 4 d.val) (BitVec.ofNat 4 a.val) 0 0 ∧
    ∃ v : FWord, exec (.redc d a) s = .next ((s.setD a 0).setF d v) ∧
      (s.natD a < Config.p * 2 ^ 768 →
        v.toNat < Config.p ∧ v.toNat * 2 ^ 768 % Config.p = s.natD a % Config.p)

/-- ADDL always answers the state in which F[d] holds (F[a] + F[b]) mod 2^768, and nothing else is changed. (R144) -/
def Obligations.AddlWraps : Prop :=
  ∀ (d a b : FReg) (s : State),
    encode (.addl d a b) = assembleFields 0x03 (BitVec.ofNat 4 d.val) (BitVec.ofNat 4 a.val) (BitVec.ofNat 4 b.val) 0 ∧
    ∃ v : FWord, exec (.addl d a b) s = .next (s.setF d v) ∧
      v.toNat = (s.natF a + s.natF b) % 2 ^ 768

/-- DADDL always answers the state in which D[d] holds (D[a] + D[b]) mod 2^1536, and nothing else is changed. (R146) -/
def Obligations.DaddlWraps : Prop :=
  ∀ (d a b : DReg) (s : State),
    encode (.daddl d a b) = assembleFields 0x04 (BitVec.ofNat 4 d.val) (BitVec.ofNat 4 a.val) (BitVec.ofNat 4 b.val) 0 ∧
    ∃ v : DWord, exec (.daddl d a b) s = .next (s.setD d v) ∧
      v.toNat = (s.natD a + s.natD b) % 2 ^ 1536

/-- DSUBL always answers the state in which D[d] holds x - y when x >= y and (x - y + p*2^768) mod 2^1536 otherwise,
x and y being D[a] and D[b], and nothing else is changed; for x < y with y - x <= p*2^768 the value is below
p*2^768 and congruent to x - y modulo p. (R148) -/
def Obligations.DsublSubtracts : Prop :=
  ∀ (d a b : DReg) (s : State),
    encode (.dsubl d a b) = assembleFields 0x05 (BitVec.ofNat 4 d.val) (BitVec.ofNat 4 a.val) (BitVec.ofNat 4 b.val) 0 ∧
    ∃ v : DWord, exec (.dsubl d a b) s = .next (s.setD d v) ∧
      (s.natD b ≤ s.natD a → v.toNat = s.natD a - s.natD b) ∧
      (s.natD a < s.natD b → (v.toNat : Int) =
        ((s.natD a : Int) - s.natD b + Config.p * 2 ^ 768) % 2 ^ 1536) ∧
      (s.natD a < s.natD b → s.natD b - s.natD a ≤ Config.p * 2 ^ 768 →
        v.toNat < Config.p * 2 ^ 768 ∧ (v.toNat + s.natD b) % Config.p = s.natD a % Config.p)

/-- SRED always answers the state in which F[d] holds x - p when x >= p and x otherwise, x being F[d], and nothing
else is changed; for x < 2p this is x mod p. It takes the same time whatever x is. (R150) -/
def Obligations.SredSubtractsOnce : Prop :=
  ∀ (d : FReg) (s : State),
    encode (.sred d) = assembleFields 0x06 (BitVec.ofNat 4 d.val) 0 0 0 ∧
    (∀ t : State, latency (.sred d) s = latency (.sred d) t) ∧
    ∃ v : FWord, exec (.sred d) s = .next (s.setF d v) ∧
      (Config.p ≤ s.natF d → v.toNat = s.natF d - Config.p) ∧
      (s.natF d < Config.p → v.toNat = s.natF d) ∧
      (s.natF d < 2 * Config.p → v.toNat = s.natF d % Config.p)

/-- FSETU always answers the state in which F[d] holds IMM*R mod p, whose logical value is IMM, and nothing else is
changed. (R190) -/
def Obligations.FsetuGivesMontgomeryForm : Prop :=
  ∀ (d : FReg) (s : State),
    encode (.fsetu d) = assembleFields 0x10 (BitVec.ofNat 4 d.val) 0 0 0 ∧
    (∃ v : FWord, exec (.fsetu d) s = .next (s.setF d v) ∧
      v.toNat = s.imm.toNat * 2 ^ 768 % Config.p ∧ val v.toNat = s.imm.toNat)

/-- For operands below 2p, FMUL answers the state in which F[d] holds the canonical v with v*R congruent to
F[a]*F[b], the Montgomery form of the product of the logical values, and nothing else is changed. With an
operand at or above 2p it completes as well, with an unspecified F[d] and nothing else changed. (R192) -/
def Obligations.FmulMultiplies : Prop :=
  ∀ (d a b : FReg) (s : State),
    encode (.fmul d a b) = assembleFields 0x08 (BitVec.ofNat 4 d.val) (BitVec.ofNat 4 a.val) (BitVec.ofNat 4 b.val) 0 ∧
    (dom (s.natF a) → dom (s.natF b) → ∃ v : FWord, exec (.fmul d a b) s = .next (s.setF d v) ∧
      v.toNat < Config.p ∧ v.toNat * 2 ^ 768 % Config.p = s.natF a * s.natF b % Config.p ∧
      v.toNat = mont (val (s.natF a) * val (s.natF b))) ∧
    (¬ dom (s.natF a) ∨ ¬ dom (s.natF b) → ∃ v : FWord, exec (.fmul d a b) s = .next (s.setF d v))

/-- For an operand below 2p, FSQR answers the state in which F[d] holds the canonical Montgomery form of the square
of the logical value, the same value as FMUL of the register by itself, and nothing else is changed. With an
operand at or above 2p it completes as well, with an unspecified F[d] and nothing else changed. (R194) -/
def Obligations.FsqrSquares : Prop :=
  ∀ (d a : FReg) (s : State),
    encode (.fsqr d a) = assembleFields 0x09 (BitVec.ofNat 4 d.val) (BitVec.ofNat 4 a.val) 0 0 ∧
    (dom (s.natF a) → ∃ v : FWord, exec (.fsqr d a) s = .next (s.setF d v) ∧
      v.toNat = mont (val (s.natF a) ^ 2) ∧ exec (.fmul d a a) s = .next (s.setF d v)) ∧
    (¬ dom (s.natF a) → ∃ v : FWord, exec (.fsqr d a) s = .next (s.setF d v))

/-- For k from 1 to 255 and an operand below 2p, FPOW2K answers the state in which F[d] holds the canonical
Montgomery form of the logical value to the power 2^k, and nothing else is changed. With an operand at or above
2p it completes as well, with an unspecified F[d] and nothing else changed. A word with k = 0 is BAD_OPERAND.
With k = 1 it is FSQR. Its latency is a function of k alone. (R196) -/
def Obligations.FpowIsRepeatedSquaring : Prop :=
  ∀ (d a : FReg) (k : BitVec 8) (s : State),
    encode (.fpow2k d a k) = assembleFields 0x0A (BitVec.ofNat 4 d.val) (BitVec.ofNat 4 a.val) 0 k ∧
    (k ≠ 0 → dom (s.natF a) → ∃ v : FWord, exec (.fpow2k d a k) s = .next (s.setF d v) ∧
      v.toNat = mont (val (s.natF a) ^ 2 ^ k.toNat)) ∧
    (¬ dom (s.natF a) → k ≠ 0 → ∃ v : FWord, exec (.fpow2k d a k) s = .next (s.setF d v)) ∧
    decode ((encode (.fpow2k d a 0)).setWidth 64) = .error .badOperand ∧
    (dom (s.natF a) → exec (.fpow2k d a 1) s = exec (.fsqr d a) s) ∧
    ∀ (d' a' : FReg) (t : State), latency (.fpow2k d a k) s = latency (.fpow2k d' a' k) t

/-- For operands below 2p, FADD answers the state in which F[d] holds (F[a] + F[b]) mod p, the Montgomery form of
the sum of the logical values, and nothing else is changed. With an operand at or above 2p it completes as well,
with an unspecified F[d] and nothing else changed. (R198) -/
def Obligations.FaddAdds : Prop :=
  ∀ (d a b : FReg) (s : State),
    encode (.fadd d a b) = assembleFields 0x0B (BitVec.ofNat 4 d.val) (BitVec.ofNat 4 a.val) (BitVec.ofNat 4 b.val) 0 ∧
    (dom (s.natF a) → dom (s.natF b) → ∃ v : FWord, exec (.fadd d a b) s = .next (s.setF d v) ∧
      v.toNat = (s.natF a + s.natF b) % Config.p ∧ v.toNat = mont (val (s.natF a) + val (s.natF b))) ∧
    (¬ dom (s.natF a) ∨ ¬ dom (s.natF b) → ∃ v : FWord, exec (.fadd d a b) s = .next (s.setF d v))

/-- For operands below 2p, FSUB answers the state in which F[d] holds (F[a] - F[b]) mod p, the Montgomery form of
the difference of the logical values, and nothing else is changed. With an operand at or above 2p it completes
as well, with an unspecified F[d] and nothing else changed. (R200) -/
def Obligations.FsubSubtracts : Prop :=
  ∀ (d a b : FReg) (s : State),
    encode (.fsub d a b) = assembleFields 0x0C (BitVec.ofNat 4 d.val) (BitVec.ofNat 4 a.val) (BitVec.ofNat 4 b.val) 0 ∧
    (dom (s.natF a) → dom (s.natF b) → ∃ v : FWord, exec (.fsub d a b) s = .next (s.setF d v) ∧
      (v.toNat : Int) = ((s.natF a : Int) - s.natF b) % Config.p ∧
      v.toNat = mont (val (s.natF a) + (Config.p - val (s.natF b)))) ∧
    (¬ dom (s.natF a) ∨ ¬ dom (s.natF b) → ∃ v : FWord, exec (.fsub d a b) s = .next (s.setF d v))

/-- For an operand below 2p, FINV answers the state in which F[d] holds the canonical Montgomery form of u^(p-2), u
being the logical value, and nothing else is changed; an operand congruent to 0 gives 0. With an operand at or
above 2p it completes as well, with an unspecified F[d] and nothing else changed. (R202, 41_prime_field.md R181) -/
def Obligations.FinvIsFermatPower : Prop :=
  ∀ (d a : FReg) (s : State),
    encode (.finv d a) = assembleFields 0x0D (BitVec.ofNat 4 d.val) (BitVec.ofNat 4 a.val) 0 0 ∧
    (dom (s.natF a) → ∃ v : FWord, exec (.finv d a) s = .next (s.setF d v) ∧
      v.toNat = mont (val (s.natF a) ^ (Config.p - 2) % Config.p) ∧ (s.natF a % Config.p = 0 → v = 0)) ∧
    (¬ dom (s.natF a) → ∃ v : FWord, exec (.finv d a) s = .next (s.setF d v))

/-- For an operand below 2p, FSQRT answers the state in which F[d] holds the canonical Montgomery form of
u^((p+1)/4), u being the logical value, residue or not, and nothing else is changed; an operand congruent to 0
gives 0. With an operand at or above 2p it completes as well, with an unspecified F[d] and nothing else changed.
For a non-residue this is the value R204 fixes, on which no program may rely (I3, log 13). (R204,
41_prime_field.md R181, 93_implementation_defined.md I3) -/
def Obligations.FsqrtIsTheAlgorithmsPower : Prop :=
  ∀ (d a : FReg) (s : State),
    encode (.fsqrt d a) = assembleFields 0x0E (BitVec.ofNat 4 d.val) (BitVec.ofNat 4 a.val) 0 0 ∧
    (dom (s.natF a) → ∃ v : FWord, exec (.fsqrt d a) s = .next (s.setF d v) ∧
      v.toNat = mont (val (s.natF a) ^ ((Config.p + 1) / 4) % Config.p) ∧ (s.natF a % Config.p = 0 → v = 0)) ∧
    (¬ dom (s.natF a) → ∃ v : FWord, exec (.fsqrt d a) s = .next (s.setF d v))

/-- For an operand below 2p, FP34 answers the state in which F[d] holds the canonical Montgomery form of
u^((p-3)/4), u being the logical value, and nothing else is changed; an operand congruent to 0 gives 0. With an
operand at or above 2p it completes as well, with an unspecified F[d] and nothing else changed. (R206,
41_prime_field.md R181, R216) -/
def Obligations.Fp34IsTheFixedPower : Prop :=
  ∀ (d a : FReg) (s : State),
    encode (.fp34 d a) = assembleFields 0x0F (BitVec.ofNat 4 d.val) (BitVec.ofNat 4 a.val) 0 0 ∧
    (dom (s.natF a) → ∃ v : FWord, exec (.fp34 d a) s = .next (s.setF d v) ∧
      v.toNat = mont (val (s.natF a) ^ ((Config.p - 3) / 4) % Config.p) ∧ (s.natF a % Config.p = 0 → v = 0)) ∧
    (¬ dom (s.natF a) → ∃ v : FWord, exec (.fp34 d a) s = .next (s.setF d v))

/-- FVEQ (EVEQ) always answers the state in which EQ is 1 exactly when F[a] and F[b] (both coordinates of the pairs
a and b) are congruent modulo p, for every 768-bit content, and nothing else is changed. (R208, R260) -/
def Obligations.EqualityCommandsWriteEq : Prop :=
  (∀ (a b : FReg) (s : State),
    encode (.fveq a b) = assembleFields 0x11 0 (BitVec.ofNat 4 a.val) (BitVec.ofNat 4 b.val) 0 ∧
    exec (.fveq a b) s = .next (s.setEq (decide (s.natF a % Config.p = s.natF b % Config.p)))) ∧
  ∀ (a b : EPair) (s : State),
    encode (.eveq a b) = assembleFields 0x1D 0 (BitVec.ofNat 4 a.val) (BitVec.ofNat 4 b.val) 0 ∧
    exec (.eveq a b) s = .next (s.setEq (decide
      (s.natRe a % Config.p = s.natRe b % Config.p ∧ s.natIm a % Config.p = s.natIm b % Config.p)))

/-- FMOV always answers the state in which F[d] holds F[a] unchanged, canonical or not, and nothing else is changed.
(R210) -/
def Obligations.FmovCopies : Prop :=
  ∀ (d a : FReg) (s : State),
    encode (.fmov d a) = assembleFields 0x12 (BitVec.ofNat 4 d.val) (BitVec.ofNat 4 a.val) 0 0 ∧
    exec (.fmov d a) s = .next (s.setF d (s.getF a))

/-- For c from 0 to 4, FLDC answers the state in which F[d] holds 0, R mod p, R^2 mod p, 1 or p, and nothing else is
changed; a word with c > 4 is BAD_OPERAND. (R212) -/
def Obligations.FldcLoadsTheRom : Prop :=
  ∀ (d : FReg) (c : BitVec 8) (s : State),
    encode (.fldc d c) = assembleFields 0x13 (BitVec.ofNat 4 d.val) 0 0 c ∧
    (c.toNat ≤ 4 → ∃ v : FWord, exec (.fldc d c) s = .next (s.setF d v) ∧
      v.toNat = [0, 2 ^ 768 % Config.p, (2 ^ 768) ^ 2 % Config.p, 1, Config.p].getD c.toNat 0) ∧
    (4 < c.toNat → decode ((encode (.fldc d c)).setWidth 64) = .error .badOperand)

/-- For coordinates below 2p, EMUL answers the state in which the pair d holds (ac - bd)*inv(R) mod p and (ad +
bc)*inv(R) mod p, the Montgomery forms of the real and imaginary parts of the product of the logical values, and
nothing else is changed. With a coordinate at or above 2p it completes as well, with both destination
coordinates unspecified and nothing else changed. (R250) -/
def Obligations.EmulMultiplies : Prop :=
  ∀ (d a b : EPair) (s : State),
    encode (.emul d a b) = assembleFields 0x18 (BitVec.ofNat 4 d.val) (BitVec.ofNat 4 a.val) (BitVec.ofNat 4 b.val) 0 ∧
    (dom (s.natRe a) → dom (s.natIm a) → dom (s.natRe b) → dom (s.natIm b) → ∃ re im : FWord, exec (.emul d a b) s = .next (s.setE d re im) ∧
      re.toNat < Config.p ∧ im.toNat < Config.p ∧
      (re.toNat * 2 ^ 768 + s.natIm a * s.natIm b) % Config.p = s.natRe a * s.natRe b % Config.p ∧
      im.toNat * 2 ^ 768 % Config.p = (s.natRe a * s.natIm b + s.natIm a * s.natRe b) % Config.p ∧
      re.toNat = mont (val (s.natRe a) * val (s.natRe b) + (Config.p - val (s.natIm a) * val (s.natIm b) % Config.p)) ∧
      im.toNat = mont (val (s.natRe a) * val (s.natIm b) + val (s.natIm a) * val (s.natRe b))) ∧
    (¬ (dom (s.natRe a) ∧ dom (s.natIm a) ∧ dom (s.natRe b) ∧ dom (s.natIm b)) → ∃ re im : FWord, exec (.emul d a b) s = .next (s.setE d re im))

/-- For coordinates below 2p, ESQR answers the state in which the pair d holds the canonical (a^2 - b^2)*inv(R) and
2ab*inv(R) modulo p, and nothing else is changed; EMUL of the pair by itself answers the same state. With a
coordinate at or above 2p it completes as well, with both destination coordinates unspecified and nothing else
changed. (R252) -/
def Obligations.EsqrSquares : Prop :=
  ∀ (d a : EPair) (s : State),
    encode (.esqr d a) = assembleFields 0x19 (BitVec.ofNat 4 d.val) (BitVec.ofNat 4 a.val) 0 0 ∧
    (dom (s.natRe a) → dom (s.natIm a) → ∃ re im : FWord, exec (.esqr d a) s = .next (s.setE d re im) ∧
      re.toNat < Config.p ∧ im.toNat < Config.p ∧
      (re.toNat * 2 ^ 768 + s.natIm a ^ 2) % Config.p = s.natRe a ^ 2 % Config.p ∧
      im.toNat * 2 ^ 768 % Config.p = 2 * s.natRe a * s.natIm a % Config.p ∧
      exec (.emul d a a) s = .next (s.setE d re im)) ∧
    (¬ (dom (s.natRe a) ∧ dom (s.natIm a)) → ∃ re im : FWord, exec (.esqr d a) s = .next (s.setE d re im))

/-- For coordinates below 2p, EADD (ESUB) answers the state in which each coordinate of the pair d is the sum
(difference) modulo p of the coordinates of a and b, and nothing else is changed. With a coordinate at or above
2p it completes as well, with both destination coordinates unspecified and nothing else changed. (R254, R256) -/
def Obligations.EaddEsubAreCoordinatewise : Prop :=
  ∀ (d a b : EPair) (s : State),
    encode (.eadd d a b) = assembleFields 0x1A (BitVec.ofNat 4 d.val) (BitVec.ofNat 4 a.val) (BitVec.ofNat 4 b.val) 0 ∧
    (dom (s.natRe a) → dom (s.natIm a) → dom (s.natRe b) → dom (s.natIm b) → ∃ re im : FWord, exec (.eadd d a b) s = .next (s.setE d re im) ∧
      re.toNat = (s.natRe a + s.natRe b) % Config.p ∧ im.toNat = (s.natIm a + s.natIm b) % Config.p) ∧
    (¬ (dom (s.natRe a) ∧ dom (s.natIm a) ∧ dom (s.natRe b) ∧ dom (s.natIm b)) → ∃ re im : FWord, exec (.eadd d a b) s = .next (s.setE d re im)) ∧
    encode (.esub d a b) = assembleFields 0x1B (BitVec.ofNat 4 d.val) (BitVec.ofNat 4 a.val) (BitVec.ofNat 4 b.val) 0 ∧
    (dom (s.natRe a) → dom (s.natIm a) → dom (s.natRe b) → dom (s.natIm b) → ∃ re im : FWord, exec (.esub d a b) s = .next (s.setE d re im) ∧
      (re.toNat : Int) = ((s.natRe a : Int) - s.natRe b) % Config.p ∧
      (im.toNat : Int) = ((s.natIm a : Int) - s.natIm b) % Config.p) ∧
    (¬ (dom (s.natRe a) ∧ dom (s.natIm a) ∧ dom (s.natRe b) ∧ dom (s.natIm b)) → ∃ re im : FWord, exec (.esub d a b) s = .next (s.setE d re im))

/-- For coordinates below 2p, EINV answers the state in which the pair d holds the canonical Montgomery forms of
alpha*n^(p-2) and -beta*n^(p-2), n being alpha^2 + beta^2 for the logical values, and nothing else is changed;
coordinates congruent to 0 give (0, 0). With a coordinate at or above 2p it completes as well, with both
destination coordinates unspecified and nothing else changed. (42_extension_field.md R258, R241) -/
def Obligations.EinvIsNormInversion : Prop :=
  ∀ (d a : EPair) (s : State),
    encode (.einv d a) = assembleFields 0x1C (BitVec.ofNat 4 d.val) (BitVec.ofNat 4 a.val) 0 0 ∧
    (dom (s.natRe a) → dom (s.natIm a) → ∃ re im : FWord, exec (.einv d a) s = .next (s.setE d re im) ∧
      re.toNat = mont (val (s.natRe a) * ((val (s.natRe a) ^ 2 + val (s.natIm a) ^ 2) ^ (Config.p - 2) % Config.p)) ∧
      im.toNat = mont ((Config.p - val (s.natIm a)) * ((val (s.natRe a) ^ 2 + val (s.natIm a) ^ 2) ^ (Config.p - 2) % Config.p)) ∧
      (s.natRe a % Config.p = 0 → s.natIm a % Config.p = 0 → re = 0 ∧ im = 0)) ∧
    (¬ (dom (s.natRe a) ∧ dom (s.natIm a)) → ∃ re im : FWord, exec (.einv d a) s = .next (s.setE d re im))

/-- For every input the 897-multiplication chain procedure of the sequencer gives the Montgomery-form power with
exponent (p-3)/4, canonical. (41_prime_field.md R216, R206, R214) -/
def Obligations.P34ChainIsTheFixedPower : Prop :=
  ∀ x : Nat, p34 x = mpow x ((Config.p - 3) / 4)

/-- The chain has initial exponent 27, 137 pairs with 744 squarings, odd multipliers at most 31, and the exponent
(p-3)/4; one P34 run is 897 multiplications; p is 2^372*3^239 - 1, between 2^750 and 2^751 and 3 modulo 4; the
constant rInv inverts R; p is -1 modulo 2^64; the ID value encodes revision 1, 751, 12 and 64.
(41_prime_field.md R214, 00_scope.md R2, R9, 10_state.md R34, R60, 70_reset_and_hazards.md R344) -/
def Obligations.ChainRomAndConstants : Prop :=
  chainInit = 27 ∧ chainRom.length = 137 ∧ (chainRom.map Prod.fst).sum = 744 ∧
  (∀ sm ∈ chainRom, sm.2 % 2 = 1 ∧ sm.2 ≤ 31) ∧ chainExponent = (Config.p - 3) / 4 ∧ p34Mms = 897 ∧
  Config.p = 2 ^ 372 * 3 ^ 239 - 1 ∧ 2 ^ 750 ≤ Config.p ∧ Config.p < 2 ^ 751 ∧ Config.p % 4 = 3 ∧
  2 ^ 768 * Config.rInv % Config.p = 1 ∧ (Config.p + 1) % 2 ^ 64 = 0 ∧
  Config.idValue = 0#16 ++ 64#8 ++ 12#8 ++ 751#16 ++ 1#16

/-- For an operand below 2p with nonzero logical value, FINV answers the state in which the logical value of F[d]
times that of the operand is 1 modulo p; and applied again to its own result in place it gives the operand
reduced modulo p. (41_prime_field.md R181, R202, 00_scope.md R2) -/
def Obligations.FinvInverts : Prop :=
  ∀ (d a : FReg) (s : State), dom (s.natF a) → val (s.natF a) ≠ 0 →
    ∃ v w : FWord, exec (.finv d a) s = .next (s.setF d v) ∧
      val (s.natF a) * val v.toNat % Config.p = 1 ∧
      exec (.finv d d) (s.setF d v) = .next ((s.setF d v).setF d w) ∧ w.toNat = s.natF a % Config.p

/-- For an operand below 2p whose logical value u is a square modulo p, FSQRT answers the state in which the square
of the logical value of F[d] is u, and that logical value is itself a square. (41_prime_field.md R204, R181) -/
def Obligations.FsqrtOfASquareIsARoot : Prop :=
  ∀ (d a : FReg) (s : State), dom (s.natF a) → (∃ w : Nat, w ^ 2 % Config.p = val (s.natF a)) →
    ∃ v : FWord, exec (.fsqrt d a) s = .next (s.setF d v) ∧
      val v.toNat ^ 2 % Config.p = val (s.natF a) ∧ ∃ w : Nat, w ^ 2 % Config.p = val v.toNat

/-- For coordinates below 2p that are not both congruent to 0, EINV answers the state in which the product of the
logical values of the pair d and of the source pair is 1 + 0i modulo p. (42_extension_field.md R241, R258) -/
def Obligations.EinvInverts : Prop :=
  ∀ (d a : EPair) (s : State), dom (s.natRe a) → dom (s.natIm a) →
    ¬ (s.natRe a % Config.p = 0 ∧ s.natIm a % Config.p = 0) →
    ∃ re im : FWord, exec (.einv d a) s = .next (s.setE d re im) ∧
      val (s.natRe a) * val re.toNat % Config.p = (1 + val (s.natIm a) * val im.toNat) % Config.p ∧
      (val (s.natRe a) * val im.toNat + val (s.natIm a) * val re.toNat) % Config.p = 0

/-- For operands below 2p, FMUL answers the state in which F[d] holds some v and nothing else is changed, and FMULW
(MULW then REDC through D[t]) answers the state in which F[d] holds the same v, D[t] is 0 and nothing else is
changed. (40_residue.md R153, 30_encoding.md R111) -/
def Obligations.FmulEqualsMulwRedc : Prop :=
  ∀ (d a b : FReg) (t : DReg) (s : State), dom (s.natF a) → dom (s.natF b) →
    ∃ v : FWord, exec (.fmul d a b) s = .next (s.setF d v) ∧
      execAll (expand (.fmulw d a b t)) s = .next ((s.setD t 0).setF d v)

/-- For every field command with a guarded operand at or above 2p: the command completes and its destination
receives the free value of this step (one draw for an F register, two draws for the two coordinates of a pair),
and nothing else is changed. The free value has no known value (log 3). (41_prime_field.md R180,
42_extension_field.md R240, 00_scope.md R15, R16) -/
def Obligations.OutOfDomainOperandsDrawFreshValues : Prop :=
  ∀ (i : Instr) (s : State), i.wf = true → (∃ r ∈ guardedOperands i, ¬ dom (s.natF r)) →
    (∀ d, writesF i = [d] → exec i s = .next (s.setF d (Config.anyF s.tick 0))) ∧
    (∀ d, writesF i = [reReg d, imReg d] →
      exec i s = .next (s.setE d (Config.anyF s.tick 0) (Config.anyF s.tick 1)))

/-- Every well-formed command of the PFU and EFU that computes a field element (not the copies FMOV and FLDC), with
its guarded operands below 2p, completes and leaves every F register of its write set below p. (00_scope.md R6,
R5, 41_prime_field.md R181, 42_extension_field.md R241) -/
def Obligations.FieldResultsAreCanonical : Prop :=
  ∀ (i : Instr) (s : State), i.wf = true → computesField i = true → (∀ r ∈ guardedOperands i, dom (s.natF r)) →
    ∃ t, exec i s = .next t ∧ ∀ r ∈ writesF i, t.natF r < Config.p

/-- From a state in which every F register is below 2p, every command that answers a next state keeps every F
register below 2p, but for ADDL and for REDC of a value at or above p*2^768. (70_reset_and_hazards.md R332,
00_scope.md R5, R6) -/
def Obligations.FieldDomainIsKept : Prop :=
  ∀ (i : Instr) (s t : State), AllInDomain s → (∀ d a b, i ≠ .addl d a b) →
    (∀ d a, i = .redc d a → s.natD a < Config.p * 2 ^ 768) → exec i s = .next t → AllInDomain t

/-- When a command answers a next state, every F and D register outside its row of the write-set table, EQ unless it
is FVEQ or EVEQ, DONE, ERR, CAUSE, IMM, IE, the command slot and every byte of the window that shows no written
register are unchanged; the unit's completion step then changes only inflight and DONE. (R337) -/
def Obligations.CommandsWriteOnlyTheirWriteSet : Prop :=
  ∀ (i : Instr) (s t : State), exec i s = .next t →
    FrameOf (writesF i) (writesD i) (writesEq i) s t ∧
    (s.inflight = some i → unitStep s = .next { t with inflight := none, done := true })

/-- For every command with a destination and sources of one class, and REDC: the value written does not depend on
which register is the destination, so aliasing the destination with a source gives the result of distinct
registers. For operands outside the field domain, and for REDC from p*2^768 on, the value is ANY: that its draw
is the same for the two destinations is the model's choice (DESIGN CHOICE, log 3: the draw depends on the step
and the slot alone), not a law of R15 or R16. (70_reset_and_hazards.md R336, 41_prime_field.md R182,
42_extension_field.md R242) -/
def Obligations.AliasedDestinationGivesTheSameResult : Prop :=
  ∀ s : State,
    (∀ (d e : FReg) (a : DReg), ∃ x, exec (.redc d a) s = .next ((s.setD a 0).setF d x) ∧
      exec (.redc e a) s = .next ((s.setD a 0).setF e x)) ∧
    (∀ (d e : FReg) (a b : FReg), ∃ x, exec (.addl d a b) s = .next (s.setF d x) ∧
      exec (.addl e a b) s = .next (s.setF e x)) ∧
    (∀ (d e : DReg) (a b : DReg), ∃ x, exec (.daddl d a b) s = .next (s.setD d x) ∧
      exec (.daddl e a b) s = .next (s.setD e x)) ∧
    (∀ (d e : DReg) (a b : DReg), ∃ x, exec (.dsubl d a b) s = .next (s.setD d x) ∧
      exec (.dsubl e a b) s = .next (s.setD e x)) ∧
    (∀ (d e : FReg) (a b : FReg), ∃ x, exec (.fmul d a b) s = .next (s.setF d x) ∧
      exec (.fmul e a b) s = .next (s.setF e x)) ∧
    (∀ (d e : FReg) (a : FReg), ∃ x, exec (.fsqr d a) s = .next (s.setF d x) ∧
      exec (.fsqr e a) s = .next (s.setF e x)) ∧
    (∀ (d e : FReg) (a b : FReg), ∃ x, exec (.fadd d a b) s = .next (s.setF d x) ∧
      exec (.fadd e a b) s = .next (s.setF e x)) ∧
    (∀ (d e : FReg) (a b : FReg), ∃ x, exec (.fsub d a b) s = .next (s.setF d x) ∧
      exec (.fsub e a b) s = .next (s.setF e x)) ∧
    (∀ (d e : FReg) (a : FReg), ∃ x, exec (.finv d a) s = .next (s.setF d x) ∧
      exec (.finv e a) s = .next (s.setF e x)) ∧
    (∀ (d e : FReg) (a : FReg), ∃ x, exec (.fsqrt d a) s = .next (s.setF d x) ∧
      exec (.fsqrt e a) s = .next (s.setF e x)) ∧
    (∀ (d e : FReg) (a : FReg), ∃ x, exec (.fp34 d a) s = .next (s.setF d x) ∧
      exec (.fp34 e a) s = .next (s.setF e x)) ∧
    (∀ (d e : FReg) (a : FReg), ∃ x, exec (.fmov d a) s = .next (s.setF d x) ∧
      exec (.fmov e a) s = .next (s.setF e x)) ∧
    (∀ (d e : EPair) (a b : EPair), ∃ x y, exec (.emul d a b) s = .next (s.setE d x y) ∧
      exec (.emul e a b) s = .next (s.setE e x y)) ∧
    (∀ (d e : EPair) (a : EPair), ∃ x y, exec (.esqr d a) s = .next (s.setE d x y) ∧
      exec (.esqr e a) s = .next (s.setE e x y)) ∧
    (∀ (d e : EPair) (a b : EPair), ∃ x y, exec (.eadd d a b) s = .next (s.setE d x y) ∧
      exec (.eadd e a b) s = .next (s.setE e x y)) ∧
    (∀ (d e : EPair) (a b : EPair), ∃ x y, exec (.esub d a b) s = .next (s.setE d x y) ∧
      exec (.esub e a b) s = .next (s.setE e x y)) ∧
    (∀ (d e : EPair) (a : EPair), ∃ x y, exec (.einv d a) s = .next (s.setE d x y) ∧
      exec (.einv e a) s = .next (s.setE e x y)) ∧
    (∀ (d e a : FReg) (k : BitVec 8), k ≠ 0 → ∃ x, exec (.fpow2k d a k) s = .next (s.setF d x) ∧
      exec (.fpow2k e a k) s = .next (s.setF e x))

/-- Take two states that agree on everything but the contents of the F and D registers, where the next step is not
the completion of an FVEQ or EVEQ and not a legal read of an operand limb while BUSY = 0. If one has a next
state so has the other, and the two next states again agree on everything but the F and D registers: STATUS,
CAUSE, IMM, CTRL, the command slot and the host's responses. Rejected reads, operand reads while BUSY = 1 and
host accesses while FVEQ or EVEQ is in flight are all covered. An operand read while BUSY = 1 answers the same
in both because the free value is drawn from the step counter (the model's choice, log 4, log 5). (00_scope.md
R7, 10_state.md R52, 40_residue.md R152, 20_memory.md R73, R77, R82) -/
def Obligations.OperandValuesAreInvisible : Prop :=
  ∀ s t s' : State, SameButOperands s t →
    (∀ i, s.inflight = some i → (s.inputs = [] ∨ ∃ rest, s.inputs = .unitTurn :: rest) → writesEq i = false) →
    (∀ e rest, s.inputs = e :: rest → readsNoOperand s.busy e) → step s = .next s' →
    ∃ t', step t = .next t' ∧ SameButOperands s' t'

/-- Two commands with the same opcode, neither FVEQ nor EVEQ, have the same latency in any two states, whatever
their registers and operand values; for FPOW2K the two squaring counts must agree as well. (40_residue.md R152,
41_prime_field.md R218, 42_extension_field.md R262, 00_scope.md R7) -/
def Obligations.LatencyDependsOnOpcodeAlone : Prop :=
  ∀ (i j : Instr) (s t : State), opcodeOf i = opcodeOf j → writesEq i = false →
    (∀ d a k d' a' k', i = .fpow2k d a k → j = .fpow2k d' a' k' → k = k') → latency i s = latency j t

/-- While BUSY = 0 a 64-bit write of v to limb j of F[i] (D[i]) changes only that register: limb j becomes v, the
other limbs stay (R76), and the next read of that offset returns v (R77). While BUSY = 1 it is BUSY_WRITE at
that offset and no register changes. That the port answers the refused write as an ordinary write (writeAck) is
the model's inference (DEDUCED, log 16), no rule's words. (20_memory.md R76, R77) -/
def Obligations.OperandLimbWriteThenRead : Prop :=
  ∀ (s : State) (v : Limb),
    (∀ (i : FReg) (j : Fin 12),
      (s.busy = false → ∃ x : FWord,
        s.hostWrite .w64 (fLimbOffset i j.val) v = (s.setF i x).respond .writeAck ∧
        (∀ k : Fin 12, limbOf x k.val = if k = j then v else limbOf (s.getF i) k.val) ∧
        ((s.setF i x).respond .writeAck).hostRead .w64 (fLimbOffset i j.val) =
          ((s.setF i x).respond .writeAck).respond (.readData v)) ∧
      (s.busy = true → s.hostWrite .w64 (fLimbOffset i j.val) v =
        (s.reject { code := .busyWrite, offset := fLimbOffset i j.val, cmdWord := 0 }).respond .writeAck)) ∧
    (∀ (i : DReg) (j : Fin 24),
      (s.busy = false → ∃ x : DWord,
        s.hostWrite .w64 (dLimbOffset i j.val) v = (s.setD i x).respond .writeAck ∧
        (∀ k : Fin 24, limbOf x k.val = if k = j then v else limbOf (s.getD i) k.val) ∧
        ((s.setD i x).respond .writeAck).hostRead .w64 (dLimbOffset i j.val) =
          ((s.setD i x).respond .writeAck).respond (.readData v)) ∧
      (s.busy = true → s.hostWrite .w64 (dLimbOffset i j.val) v =
        (s.reject { code := .busyWrite, offset := dLimbOffset i j.val, cmdWord := 0 }).respond .writeAck))

/-- While BUSY = 1 a write to CMD or IMM is rejected with BUSY_WRITE at its offset, leaves DONE and the command in
flight as they were; writes to STATUS and CTRL have their effect; reads of STATUS, CAUSE, IMM, CTRL and ID
return their current values. That the port answers a write refused with BUSY_WRITE as an ordinary write
(writeAck) is the model's inference (DEDUCED, log 16), no rule's words. (20_memory.md R78) -/
def Obligations.BusyAccessesToControlRegisters : Prop :=
  ∀ (s : State) (v : Limb), s.busy = true →
    s.hostWrite .w64 0xF00 v = (s.reject { code := .busyWrite, offset := 0xF00, cmdWord := 0 }).respond .writeAck ∧
    s.hostWrite .w64 0xF18 v = (s.reject { code := .busyWrite, offset := 0xF18, cmdWord := 0 }).respond .writeAck ∧
    (s.hostWrite .w64 0xF00 v).done = s.done ∧ (s.hostWrite .w64 0xF00 v).inflight = s.inflight ∧
    s.hostWrite .w64 0xF08 v = (s.writeStatus v).respond .writeAck ∧
    s.hostWrite .w64 0xF20 v = (s.writeCtrl v).respond .writeAck ∧
    s.hostRead .w64 0xF08 = s.respond (.readData s.statusWord) ∧
    s.hostRead .w64 0xF10 = s.respond (.readData s.cause.word) ∧
    s.hostRead .w64 0xF18 = s.respond (.readData s.imm) ∧
    s.hostRead .w64 0xF20 = s.respond (.readData s.ctrlWord) ∧
    s.hostRead .w64 0xF28 = s.respond (.readData Config.idValue)

/-- A read or write that is not 64 bits wide or not at a multiple of 8 changes no register but ERR and CAUSE, is
answered with a bus error (a read with the data 0), and records its offset when ERR was 0, before every other
check. (20_memory.md R73, 60_exceptions.md R288, R286) -/
def Obligations.BadAccessesAreRejected : Prop :=
  ∀ (s : State) (w : Width) (o : Offset) (v : Limb), (w ≠ .w64 ∨ o.toNat % 8 ≠ 0) →
    s.hostRead w o = { s with
      err := true, cause := if s.err = true then s.cause else { code := .badAccess, offset := o, cmdWord := 0 },
      responses := s.responses ++ [.readError 0] } ∧
    s.hostWrite w o v = { s with
      err := true, cause := if s.err = true then s.cause else { code := .badAccess, offset := o, cmdWord := 0 },
      responses := s.responses ++ [.writeError] }

/-- A legal read of a reserved offset (0x600 to 0x7FF, 0xB00 to 0xEFF, 0xF30 to 0xFFF) or of CMD returns 0, and a
legal write to a reserved offset, CAUSE or ID changes no register and raises no error, at any time. (R74) -/
def Obligations.ReservedOffsetsReadZeroIgnoreWrites : Prop :=
  ∀ (s : State) (o : Offset) (v : Limb), o.toNat % 8 = 0 →
    ((0x600 ≤ o.toNat ∧ o.toNat < 0x800 ∨ 0xB00 ≤ o.toNat ∧ o.toNat < 0xF00 ∨ 0xF30 ≤ o.toNat ∨ o = 0xF00) →
      s.hostRead .w64 o = s.respond (.readData 0)) ∧
    ((0x600 ≤ o.toNat ∧ o.toNat < 0x800 ∨ 0xB00 ≤ o.toNat ∧ o.toNat < 0xF00 ∨ 0xF30 ≤ o.toNat ∨
        o = 0xF10 ∨ o = 0xF28) →
      s.hostWrite .w64 o v = s.respond .writeAck)

/-- Every legal read changes nothing but the host's responses (R79). With BUSY = 0 a read of limb j of F[i] (D[i])
returns that limb (R77); with BUSY = 1 it returns ANY. That this ANY is the opaque Config.anyLimb of the step
counter, of which nothing is known, is the model's choice (DESIGN CHOICE, log 4), not a law of R77.
(20_memory.md R77, R79) -/
def Obligations.OperandReadsAndLegalReads : Prop :=
  ∀ s : State,
    (∀ o : Offset, o.toNat % 8 = 0 → ∃ v, s.hostRead .w64 o = s.respond (.readData v)) ∧
    (∀ (i : FReg) (j : Fin 12), s.hostRead .w64 (fLimbOffset i j.val) =
      s.respond (.readData (if s.busy = true then Config.anyLimb s.tick else limbOf (s.getF i) j.val))) ∧
    (∀ (i : DReg) (j : Fin 24), s.hostRead .w64 (dLimbOffset i j.val) =
      s.respond (.readData (if s.busy = true then Config.anyLimb s.tick else limbOf (s.getD i) j.val)))

/-- Byte k of the bytes of F[i] in the window is bits 8k+7 to 8k of F[i], for k below 96; byte k of the bytes of
D[i] is bits 8k+7 to 8k of D[i], for k below 192. (20_memory.md R72, R71, 00_scope.md R10) -/
def Obligations.WindowBytesAreLittleEndian : Prop :=
  ∀ s : State,
    (∀ (i : FReg) (k : Fin 96), s.windowByte (BitVec.ofNat 12 (0x60 * i.val + k.val)) =
      (s.getF i).extractLsb' (8 * k.val) 8) ∧
    (∀ (i : DReg) (k : Fin 192), s.windowByte (BitVec.ofNat 12 (0x800 + 0xC0 * i.val + k.val)) =
      (s.getD i).extractLsb' (8 * k.val) 8)

/-- A read of STATUS shows BUSY, DONE, EQ and ERR in bits 0 to 3 and 0 elsewhere. A write of v, at any time, clears
DONE when v[1] = 1 and clears ERR and CAUSE when v[3] = 1; everything else stays, BUSY and EQ among it. BUSY is
1 exactly when a command is in flight. Acceptance clears DONE, completion and a decode rejection set it, every
rejection sets ERR. All four bits are 0 after reset. (R42) -/
def Obligations.StatusFieldsAndWrite : Prop :=
  ∀ (s : State) (v : Limb),
    s.hostRead .w64 0xF08 = s.respond (.readData s.statusWord) ∧
    (∀ k, s.statusWord.getLsbD k = (k == 0 && s.busy || k == 1 && s.done || k == 2 && s.eq || k == 3 && s.err)) ∧
    (∀ i, (s.accept i).busy = true ∧ (s.accept i).done = false) ∧ s.finish.busy = false ∧ s.finish.done = true ∧
    (∀ c, (s.reject c).err = true) ∧ (∀ e cw, (s.reject (Cause.ofCommand e cw)).done = true) ∧
    (s.busy = true ↔ s.inflight ≠ none) ∧ State.reset.statusWord = 0 ∧
    s.hostWrite .w64 0xF08 v = { s with
      done := if v.getLsbD 1 = true then false else s.done
      err := if v.getLsbD 3 = true then false else s.err
      cause := if v.getLsbD 3 = true then { code := .noCause, offset := 0, cmdWord := 0 } else s.cause
      responses := s.responses ++ [.writeAck] }

/-- CAUSE reads CODE in bits 7:0 (0 none, 1 ILLEGAL_OPCODE, 2 RESERVED_FIELD, 3 BAD_OPERAND, 4 BUSY_WRITE, 5
BAD_ACCESS, and no other code), OFFSET in 27:16, CMDWORD in 63:32 and 0 elsewhere; IMM reads back what an idle
write stored; CTRL reads IE in bit 0 and 0 elsewhere; ID reads its constant; a CTRL write with v[1] = 0 sets IE
to v[0] and nothing else. (10_state.md R40, R44, R46, R48, R60, 60_exceptions.md R282) -/
def Obligations.ControlRegisterWords : Prop :=
  ∀ (s : State) (v : Limb),
    (∃ w, s.hostRead .w64 0xF10 = s.respond (.readData w) ∧ (match s.cause.code with
        | .noCause => w.extractLsb' 0 8 = 0
        | .illegalOpcode => w.extractLsb' 0 8 = 1
        | .reservedField => w.extractLsb' 0 8 = 2
        | .badOperand => w.extractLsb' 0 8 = 3
        | .busyWrite => w.extractLsb' 0 8 = 4
        | .badAccess => w.extractLsb' 0 8 = 5) ∧
      w.extractLsb' 8 8 = 0 ∧ w.extractLsb' 16 12 = s.cause.offset ∧ w.extractLsb' 28 4 = 0 ∧
      w.extractLsb' 32 32 = s.cause.cmdWord) ∧
    (s.busy = false → s.hostWrite .w64 0xF18 v = { s with imm := v, responses := s.responses ++ [.writeAck] }) ∧
    s.hostRead .w64 0xF18 = s.respond (.readData s.imm) ∧
    (∃ w, s.hostRead .w64 0xF20 = s.respond (.readData w) ∧ ∀ k, w.getLsbD k = (k == 0 && s.ie)) ∧
    s.hostRead .w64 0xF28 = s.respond (.readData 0x0000400C02EF0001) ∧
    (v.getLsbD 1 = false → s.hostWrite .w64 0xF20 v =
      { s with ie := v.getLsbD 0, responses := s.responses ++ [.writeAck] })

/-- A hard reset event, and a CTRL write with bit 1 = 1 at any time, leave every F and D register 0, EQ, BUSY, DONE,
ERR, CAUSE, IMM and IE 0, no command in flight and irq 0; ID stays its constant and CTRL.SRST reads 0. The
model's own fields are not the unit's (log 5). (R320, R322) -/
def Obligations.HardAndSoftReset : Prop :=
  (∀ (s t : State) (rest : List HostEvent) (v : Limb),
    (s.inputs = .hardReset :: rest ∨ v.getLsbD 1 = true ∧ s.inputs = .write .w64 0xF20 v :: rest) →
    step s = .next t →
    (∀ i, t.getF i = 0) ∧ (∀ i, t.getD i = 0) ∧ t.eq = false ∧ t.busy = false ∧ t.done = false ∧ t.err = false ∧
      t.cause = { code := .noCause, offset := 0, cmdWord := 0 } ∧ t.cause.word = 0 ∧ t.imm = 0 ∧ t.ie = false ∧
      t.inflight = none ∧ t.irq = false ∧ t.statusWord = 0) ∧
  (∀ (s : State) (rest : List HostEvent) (v : Limb),
    (s.inputs = .hardReset :: rest ∨ s.inputs = .write .w64 0xF20 v :: rest) → ∃ t, step s = .next t) ∧
  (∀ s : State, s.windowWord .ident = Config.idValue ∧ s.ctrlWord.getLsbD 1 = false)

/-- irq is 1 exactly when IE and DONE are 1. After a completion or a decode rejection it equals IE; after an
acceptance, a STATUS write with bit 1, a CTRL write with bit 0 = 0 or with bit 1 = 1 it is 0, and the CTRL write
with bits 1 and 0 zero leaves DONE pending; BUSY_WRITE and BAD_ACCESS leave it unchanged. (60_exceptions.md
R300, R302, 30_encoding.md R120, 10_state.md R50) -/
def Obligations.IrqIsEnableAndDone : Prop :=
  ∀ (s : State) (i : Instr) (v : Limb) (o : Offset) (e : DecodeError) (cw : CmdWord),
    (s.irq = true ↔ s.ie = true ∧ s.done = true) ∧ s.finish.irq = s.ie ∧
    (s.reject (Cause.ofCommand e cw)).irq = s.ie ∧ (s.accept i).irq = false ∧
    (v.getLsbD 1 = true → (s.writeStatus v).irq = false) ∧
    (v.getLsbD 0 = false → (s.writeCtrl v).irq = false) ∧
    (v.getLsbD 1 = false → (s.writeCtrl v).done = s.done) ∧
    (v.getLsbD 1 = true → (s.writeCtrl v).irq = false) ∧
    (s.reject (Cause.ofAccess .busyWrite o)).irq = s.irq ∧ (s.reject (Cause.ofAccess .badAccess o)).irq = s.irq

/-- Under its side condition and with operands below 2p, each expansion completes and leaves: FZERO 0; FONE Mont(1);
FNEG (0 - fa) mod p; TOMONT fa*R mod p; FROMMONT fa*inv(R) mod p; EMOV the pair copied; EZERO (0, 0); EONE
(Mont(1), 0). (30_encoding.md R111, 70_reset_and_hazards.md R330) -/
def Obligations.PseudoInstructionsMeanWhatTheySay : Prop :=
  ∀ (s : State) (d a t : FReg) (x y : EPair),
    (∃ u, execAll (expand (.fzero d)) s = .next u ∧ u.natF d = 0) ∧
    (∃ u, execAll (expand (.fone d)) s = .next u ∧ u.natF d = mont 1) ∧
    (sideCondition (.fneg d a) = true → dom (s.natF a) → ∃ u, execAll (expand (.fneg d a)) s = .next u ∧
      (u.natF d : Int) = (0 - (s.natF a : Int)) % Config.p) ∧
    (sideCondition (.tomont d a t) = true → dom (s.natF a) → ∃ u, execAll (expand (.tomont d a t)) s = .next u ∧
      u.natF d = s.natF a * 2 ^ 768 % Config.p) ∧
    (sideCondition (.frommont d a t) = true → dom (s.natF a) →
      ∃ u, execAll (expand (.frommont d a t)) s = .next u ∧ u.natF d = val (s.natF a)) ∧
    (∃ u, execAll (expand (.emov x y)) s = .next u ∧ u.natRe x = s.natRe y ∧ u.natIm x = s.natIm y) ∧
    (∃ u, execAll (expand (.ezero x)) s = .next u ∧ u.natRe x = 0 ∧ u.natIm x = 0) ∧
    (∃ u, execAll (expand (.eone x)) s = .next u ∧ u.natRe x = mont 1 ∧ u.natIm x = 0)
end

