-- ==== Sys2Proof/Laws/Decode.lean ====
section
/-! SUPPORT. The fields of an assembled command word, and how a row's mask acts on it field by field. -/

namespace Sys2Proof

@[simp] theorem fieldOp_assembleFields (op : BitVec 6) (d a b : BitVec 4) (imm : BitVec 8) :
    fieldOp (assembleFields op d a b imm) = op := by
  ext i hi
  simp only [fieldOp, assembleFields, BitVec.getElem_extractLsb', BitVec.getLsbD_append]
  interval_cases i <;> simp [BitVec.getLsbD_eq_getElem]

@[simp] theorem fieldD_assembleFields (op : BitVec 6) (d a b : BitVec 4) (imm : BitVec 8) :
    fieldD (assembleFields op d a b imm) = d := by
  ext i hi
  simp only [fieldD, assembleFields, BitVec.getElem_extractLsb', BitVec.getLsbD_append]
  interval_cases i <;> simp [BitVec.getLsbD_eq_getElem]

@[simp] theorem fieldA_assembleFields (op : BitVec 6) (d a b : BitVec 4) (imm : BitVec 8) :
    fieldA (assembleFields op d a b imm) = a := by
  ext i hi
  simp only [fieldA, assembleFields, BitVec.getElem_extractLsb', BitVec.getLsbD_append]
  interval_cases i <;> simp [BitVec.getLsbD_eq_getElem]

@[simp] theorem fieldB_assembleFields (op : BitVec 6) (d a b : BitVec 4) (imm : BitVec 8) :
    fieldB (assembleFields op d a b imm) = b := by
  ext i hi
  simp only [fieldB, assembleFields, BitVec.getElem_extractLsb', BitVec.getLsbD_append]
  interval_cases i <;> simp [BitVec.getLsbD_eq_getElem]

@[simp] theorem fieldImm_assembleFields (op : BitVec 6) (d a b : BitVec 4) (imm : BitVec 8) :
    fieldImm (assembleFields op d a b imm) = imm := by
  ext i hi
  simp only [fieldImm, assembleFields, BitVec.getElem_extractLsb', BitVec.getLsbD_append]
  interval_cases i <;> simp [BitVec.getLsbD_eq_getElem]

/-- A mask acts on a command word field by field; it may fix the reserved bits 13:8, which are 0. -/
theorem assembleFields_and (op m1 : BitVec 6) (d a b m2 m3 m4 : BitVec 4) (m5 : BitVec 6)
    (imm m6 : BitVec 8) :
    assembleFields op d a b imm &&& (m1 ++ m2 ++ m3 ++ m4 ++ m5 ++ m6) =
      assembleFields (op &&& m1) (d &&& m2) (a &&& m3) (b &&& m4) (imm &&& m6) := by
  ext i hi
  simp only [assembleFields, ← BitVec.getLsbD_eq_getElem,
    BitVec.getLsbD_append, BitVec.getLsbD_and]
  split_ifs <;> simp

@[simp] theorem fregOf_ofFreg (i : FReg) : fregOf (ofFreg i) = i := by revert i; decide
@[simp] theorem dregOf_ofDreg (i : DReg) : dregOf (ofDreg i) = i := by revert i; decide
@[simp] theorem epairOf_ofEpair (i : EPair) : epairOf (ofEpair i) = i := by revert i; decide
@[simp] theorem ofDreg_and_12 (i : DReg) : ofDreg i &&& 0xc#4 = 0#4 := by revert i; decide
@[simp] theorem ofEpair_and_8 (i : EPair) : ofEpair i &&& 0x8#4 = 0#4 := by revert i; decide

/-- Every command word is its fields, the reserved bits 13:8 among them (R101). -/
theorem word_eq_fields (w : CmdWord) :
    w = fieldOp w ++ fieldD w ++ fieldA w ++ fieldB w ++ w.extractLsb' 8 6 ++ fieldImm w := by
  ext i hi
  simp only [fieldOp, fieldD, fieldA, fieldB, fieldImm, ← BitVec.getLsbD_eq_getElem, BitVec.getLsbD_append]
  interval_cases i <;> simp

theorem ofFreg_fregOf (x : BitVec 4) : ofFreg (fregOf x) = x := by revert x; decide
theorem ofDreg_dregOf (x : BitVec 4) (h : x &&& 0xc#4 = 0#4) : ofDreg (dregOf x) = x := by revert x; decide
theorem ofEpair_epairOf (x : BitVec 4) (h : x &&& 0x8#4 = 0#4) : ofEpair (epairOf x) = x := by revert x; decide

end Sys2Proof
end

