-- ==== Sys2Proof/Laws/Prime.lean ====
section
/-! SUPPORT. The modulus p of R2 is prime. p + 1 = 2^372·3^239, and an element of order p + 1 is exhibited in
Z/p[i]. Its order is still p + 1 in F_q[i] for every prime q that divides p, so p + 1 < q², and p has no prime
factor up to its square root. -/

namespace Sys2Proof.Machine

/-- The product of two Gaussian numbers with coordinates modulo p. -/
def mulI (x y : Nat × Nat) : Nat × Nat :=
  ((x.1 * y.1 + (Config.p - x.2 * y.2 % Config.p)) % Config.p, (x.1 * y.2 + x.2 * y.1) % Config.p)

/-- n squarings in a row. -/
def squaresI : Nat → Nat × Nat → Nat × Nat
  | 0, x => x
  | n + 1, x => squaresI n (mulI x x)

/-- n cubings in a row. -/
def cubesI : Nat → Nat × Nat → Nat × Nat
  | 0, x => x
  | n + 1, x => cubesI n (mulI (mulI x x) x)

/-- (−12 − 5i)/13 modulo p, an element of norm 1. -/
def alphaI : Nat × Nat :=
  (0x44dc34775cfd92819413711087a18d290ceefdf7982c53e198dd70912c97e8f99a8633ac2f0e161b70520622c067f5589d89d89d89d89d89d89d89d89d89d89d89d89d89d89d89d89d89d89d89d89d89d89d89d89d89d89d89d89d89d89c,
   0x674a4eb30b7c5bc25e1d2998cb7253bd93667cf364427dd2654c28d9c2e3dd7667c94d8246952129287b0934209bf004ec4ec4ec4ec4ec4ec4ec4ec4ec4ec4ec4ec4ec4ec4ec4ec4ec4ec4ec4ec4ec4ec4ec4ec4ec4ec4ec4ec4ec4ec4eb)

/-- The inverse modulo p of the imaginary part of alpha^((p+1)/3). -/
def thirdInv : Nat :=
  0x6fe5d541f71c0e12909f97badc668562b5045cb25748084e9867d6ebe876da959b1a13f7cc76e3ec968549f878a8edec90e61910ad1b413b7d04a30bd9b629a8280836282f49a7ffffffffffffffffffffffffffffffffffffffffffffff

theorem p_add_one : Config.p + 1 = 2 ^ 372 * 3 ^ 239 := by decide +kernel

theorem alphaI_full : cubesI 239 (squaresI 372 alphaI) = (1, 0) := by decide +kernel

theorem alphaI_half : cubesI 239 (squaresI 371 alphaI) = (Config.p - 1, 0) := by decide +kernel

theorem alphaI_third : (cubesI 238 (squaresI 372 alphaI)).2 * thirdInv % Config.p = 1 := by decide +kernel

theorem p_odd : Config.p % 2 = 1 := by decide +kernel

section order
variable {q : Nat}

/-- F_q[i]. -/
abbrev GaussMod (q : Nat) : Type := QuadraticAlgebra (ZMod q) (-1) 0

/-- A pair of integers as an element of F_q[i]. -/
def toGauss (q : Nat) (x : Nat × Nat) : GaussMod q := ⟨x.1, x.2⟩

theorem cast_mod_p (hq : q ∣ Config.p) (n : Nat) : ((n % Config.p : Nat) : ZMod q) = n := by
  have h : ((Config.p : Nat) : ZMod q) = 0 := (ZMod.natCast_eq_zero_iff _ _).2 hq
  conv_rhs => rw [← Nat.mod_add_div n Config.p]
  simp [h]

theorem toGauss_mulI (hq : q ∣ Config.p) (x y : Nat × Nat) :
    toGauss q (mulI x y) = toGauss q x * toGauss q y := by
  have hp : ((Config.p : Nat) : ZMod q) = 0 := (ZMod.natCast_eq_zero_iff _ _).2 hq
  have hle : x.2 * y.2 % Config.p ≤ Config.p := (Nat.mod_lt _ (by decide +kernel)).le
  ext
  · simp [toGauss, mulI, cast_mod_p hq, Nat.cast_sub hle, hp]
  · simp [toGauss, mulI, cast_mod_p hq]

theorem toGauss_squaresI (hq : q ∣ Config.p) (n : Nat) (x : Nat × Nat) :
    toGauss q (squaresI n x) = toGauss q x ^ 2 ^ n := by
  induction n generalizing x with
  | zero => simp [squaresI]
  | succ n ih => rw [squaresI, ih, toGauss_mulI hq, ← sq, ← pow_mul, pow_succ']

theorem toGauss_cubesI (hq : q ∣ Config.p) (n : Nat) (x : Nat × Nat) :
    toGauss q (cubesI n x) = toGauss q x ^ 3 ^ n := by
  induction n generalizing x with
  | zero => simp [cubesI]
  | succ n ih =>
    rw [cubesI, ih, toGauss_mulI hq, toGauss_mulI hq, ← pow_two, ← pow_succ, ← pow_mul, pow_succ' 3 n]

theorem toGauss_pow (hq : q ∣ Config.p) (m n : Nat) :
    toGauss q alphaI ^ (2 ^ m * 3 ^ n) = toGauss q (cubesI n (squaresI m alphaI)) := by
  rw [toGauss_cubesI hq, toGauss_squaresI hq, pow_mul]

/-- In F_q[i], for a prime q that divides p, alpha has order p + 1. -/
theorem orderOf_alpha (hq : q ∣ Config.p) (hqp : q.Prime) :
    orderOf (toGauss q alphaI) = 2 ^ 372 * 3 ^ 239 := by
  have hodd : ¬ q ∣ 2 := fun h => by
    have h2 : q = 2 := (Nat.prime_dvd_prime_iff_eq hqp Nat.prime_two).1 h
    have := Nat.mod_eq_zero_of_dvd (h2 ▸ hq)
    rw [p_odd] at this; exact absurd this one_ne_zero
  refine orderOf_eq_of_pow_and_pow_div_prime (by positivity) ?_ ?_
  · rw [toGauss_pow hq, alphaI_full]; ext <;> simp [toGauss, QuadraticAlgebra.re_one, QuadraticAlgebra.im_one]
  intro r hr hdvd
  obtain rfl | rfl : r = 2 ∨ r = 3 := by
    rcases (Nat.Prime.dvd_mul hr).1 hdvd with h | h
    · exact .inl ((Nat.prime_dvd_prime_iff_eq hr Nat.prime_two).1 (hr.dvd_of_dvd_pow h))
    · exact .inr ((Nat.prime_dvd_prime_iff_eq hr Nat.prime_three).1 (hr.dvd_of_dvd_pow h))
  · have hd : 2 ^ 372 * 3 ^ 239 / 2 = 2 ^ 371 * 3 ^ 239 := by decide +kernel
    rw [hd, toGauss_pow hq, alphaI_half]
    intro h
    have hre := congrArg QuadraticAlgebra.re h
    have h1 : ((Config.p - 1 : Nat) : ZMod q) + 1 = 0 := by
      rw [← Nat.cast_succ]
      exact (ZMod.natCast_eq_zero_iff _ _).2 hq
    simp only [toGauss, QuadraticAlgebra.re_one] at hre
    rw [hre] at h1
    refine hodd ((ZMod.natCast_eq_zero_iff 2 q).1 ?_)
    push_cast; linear_combination h1
  · have hd : 2 ^ 372 * 3 ^ 239 / 3 = 2 ^ 372 * 3 ^ 238 := by decide +kernel
    rw [hd, toGauss_pow hq]
    intro h
    have him := congrArg QuadraticAlgebra.im h
    simp only [toGauss, QuadraticAlgebra.im_one] at him
    have h1 := cast_mod_p hq ((cubesI 238 (squaresI 372 alphaI)).2 * thirdInv)
    rw [alphaI_third, Nat.cast_mul, him, zero_mul, Nat.cast_one] at h1
    have := Fact.mk hqp
    exact one_ne_zero h1

end order

/-- A finite ring has fewer units than elements, so the order of an element is below the ring's size. -/
theorem orderOf_lt_card {A : Type} [Ring A] [Nontrivial A] [Finite A] (x : A) (hx : 0 < orderOf x) :
    orderOf x < Nat.card A := by
  let u : Aˣ := Units.ofPowEqOne x (orderOf x) (pow_orderOf_eq_one x) hx.ne'
  have hu : orderOf u = orderOf x := by rw [← orderOf_units]; rfl
  have hlt : Nat.card Aˣ < Nat.card A := by
    classical
    have := Fintype.ofFinite A
    simpa only [Nat.card_eq_fintype_card] using card_units_lt A
  exact hu ▸ orderOf_le_card.trans_lt hlt

/-- F_q[i] has fewer than q² units. -/
theorem orderOf_lt_sq {q : Nat} (hqp : q.Prime) (x : GaussMod q) (hx : 0 < orderOf x) :
    orderOf x < q ^ 2 := by
  have := Fact.mk hqp
  have hcard : Nat.card (GaussMod q) = q ^ 2 := by
    rw [Nat.card_congr (QuadraticAlgebra.equivProd (-1 : ZMod q) 0), Nat.card_prod,
      Nat.card_zmod, sq]
  have : Finite (GaussMod q) := Finite.of_equiv _ (QuadraticAlgebra.equivProd (-1 : ZMod q) 0).symm
  exact hcard ▸ orderOf_lt_card x hx

/-- p is prime (R2). -/
theorem p_prime : Nat.Prime Config.p := by
  by_contra hp
  have hpos : 0 < Config.p := by decide +kernel
  have hmin : (Nat.minFac Config.p).Prime := Nat.minFac_prime (by decide +kernel)
  have hord := orderOf_alpha (Nat.minFac_dvd Config.p) hmin
  have hlt := orderOf_lt_sq hmin (toGauss _ alphaI) (by rw [hord]; positivity)
  have hle := Nat.minFac_sq_le_self hpos hp
  rw [hord, ← p_add_one] at hlt
  omega

end Sys2Proof.Machine
end

