-- ==== Sys2Proof/Laws/Field.lean ====
section
/-! SUPPORT. The datapath arithmetic read in Z/p: what each operation computes there, and that its result is
canonical. Two canonical values are equal when they agree in Z/p. -/

namespace Sys2Proof.Machine

/-- Z/p. -/
abbrev Zp : Type := ZMod Config.p

theorem p_pos : 0 < Config.p := by decide +kernel

/-- R · inv_p(R) = 1 mod p (R9). -/
theorem radix_mul_rInv : Config.radix * Config.rInv % Config.p = 1 := by decide +kernel

theorem two_p_lt : 2 * Config.p < 2 ^ 752 := by decide +kernel

/-- p·2^768 fits a D register with room to spare (R142, R148). -/
theorem p_mul_radix_lt : Config.p * Config.radix < 2 ^ 1536 := by decide +kernel

/-- The product bounds of R142, R250, R252 and R258: 16p² is below the reduction domain's bound. -/
theorem sixteen_p_lt_radix : 16 * Config.p < Config.radix := by decide +kernel

theorem cast_mod_self (n : Nat) : ((n % Config.p : Nat) : Zp) = n := ZMod.natCast_mod n Config.p

/-- The radix and its inverse in Z/p. -/
@[simp] theorem cast_radix_mul_rInv : (Config.radix : Zp) * (Config.rInv : Zp) = 1 := by
  have h := cast_mod_self (Config.radix * Config.rInv)
  rw [radix_mul_rInv] at h
  push_cast at h
  exact h.symm

@[simp] theorem cast_rInv_mul_radix : (Config.rInv : Zp) * (Config.radix : Zp) = 1 := by
  rw [mul_comm, cast_radix_mul_rInv]

/-- Two canonical values that agree in Z/p are equal. -/
theorem eq_of_cast_eq {x y : Nat} (hx : x < Config.p) (hy : y < Config.p) (h : (x : Zp) = y) : x = y := by
  have := (ZMod.natCast_eq_natCast_iff' x y Config.p).1 h
  rwa [Nat.mod_eq_of_lt hx, Nat.mod_eq_of_lt hy] at this

/-! ### Ranges -/

theorem redc_lt (t : Nat) : redc t < Config.p := Nat.mod_lt _ p_pos
theorem mmul_lt (x y : Nat) : mmul x y < Config.p := redc_lt _
theorem addP_lt (x y : Nat) : addP x y < Config.p := Nat.mod_lt _ p_pos
theorem val_lt (x : Nat) : val x < Config.p := Nat.mod_lt _ p_pos
theorem mont_lt (v : Nat) : mont v < Config.p := Nat.mod_lt _ p_pos

theorem subP_lt (x y : Nat) : subP x y < Config.p := by
  have hp : (Config.p : Int) ≠ 0 := by exact_mod_cast p_pos.ne'
  have h1 := Int.emod_lt_of_pos ((x : Int) - y) (by exact_mod_cast p_pos : (0 : Int) < Config.p)
  have h0 := Int.emod_nonneg ((x : Int) - y) hp
  unfold subP
  omega

theorem invP_lt (x : Nat) : invP x < Config.p := mmul_lt _ _
theorem sqrtP_lt (x : Nat) : sqrtP x < Config.p := mmul_lt _ _

/-- A canonical value fits an F register. -/
theorem lt_two_pow_of_lt_p {x : Nat} (h : x < Config.p) : x < 2 ^ 768 :=
  h.trans (by decide +kernel)

/-- The content of an F register holding a canonical value. -/
theorem toNat_toF_of_lt {x : Nat} (h : x < Config.p) : (toF x).toNat = x := by
  rw [toF, BitVec.toNat_ofNat, Nat.mod_eq_of_lt]
  exact lt_two_pow_of_lt_p h

/-! ### Values in Z/p -/

@[simp] theorem cast_redc (t : Nat) : ((redc t : Nat) : Zp) = t * Config.rInv := by
  rw [redc, cast_mod_self]; push_cast; rfl

@[simp] theorem cast_mmul (x y : Nat) : ((mmul x y : Nat) : Zp) = x * y * Config.rInv := by
  rw [mmul, cast_redc]; push_cast; rfl

@[simp] theorem cast_addP (x y : Nat) : ((addP x y : Nat) : Zp) = x + y := by
  rw [addP, cast_mod_self]; push_cast; rfl

@[simp] theorem cast_val (x : Nat) : ((val x : Nat) : Zp) = x * Config.rInv := by
  rw [val, cast_mod_self]; push_cast; rfl

@[simp] theorem cast_mont (v : Nat) : ((mont v : Nat) : Zp) = v * Config.radix := by
  rw [mont, cast_mod_self]; push_cast; rfl

@[simp] theorem cast_subP (x y : Nat) : ((subP x y : Nat) : Zp) = x - y := by
  have hp : (Config.p : Int) ≠ 0 := by exact_mod_cast p_pos.ne'
  have h0 := Int.emod_nonneg ((x : Int) - y) hp
  have h : ((subP x y : Nat) : Int) = ((x : Int) - y) % (Config.p : Int) := by
    unfold subP; exact Int.toNat_of_nonneg h0
  have h2 : (((subP x y : Nat) : Int) : Zp) = (((x : Int) - y : Int) : Zp) := by
    rw [h]; exact ZMod.intCast_mod _ _
  push_cast at h2
  exact h2

/-- The double-width subtract keeps the difference modulo p when the borrow stays within p·2^768 (R148). -/
theorem cast_subLazy {x y : Nat} (h : y ≤ x + Config.p * Config.radix) :
    ((subLazy x y : Nat) : Zp) = x - y := by
  unfold subLazy
  split
  · rename_i hle
    rw [Nat.cast_sub hle]
  · rename_i hlt
    have hb := p_mul_radix_lt
    have h0 : (0 : Int) ≤ (x : Int) - y + (Config.p : Int) * Config.radix := by
      have : (y : Int) ≤ x + (Config.p : Int) * Config.radix := by exact_mod_cast h
      omega
    have h1 : (x : Int) - y + (Config.p : Int) * Config.radix < (2 ^ 1536 : Int) := by
      have hb' : (Config.p : Int) * Config.radix < 2 ^ 1536 := by exact_mod_cast hb
      have hlt' : (x : Int) < y := by exact_mod_cast (not_le.1 hlt)
      omega
    rw [Int.emod_eq_of_lt h0 h1]
    have h2 : ((((x : Int) - y + (Config.p : Int) * Config.radix).toNat : Int) : Zp)
        = (((x : Int) - y + (Config.p : Int) * Config.radix : Int) : Zp) := by
      rw [Int.toNat_of_nonneg h0]
    rw [Int.cast_natCast, Int.cast_add, Int.cast_mul, Int.cast_sub, Int.cast_natCast, Int.cast_natCast,
      Int.cast_natCast, Int.cast_natCast, ZMod.natCast_self, zero_mul, add_zero] at h2
    exact h2

/-- Montgomery form and back (R4). -/
theorem val_mont (v : Nat) : val (mont v) = v % Config.p := by
  apply eq_of_cast_eq (val_lt _) (Nat.mod_lt _ p_pos)
  rw [cast_val, cast_mont, cast_mod_self, mul_assoc, cast_radix_mul_rInv, mul_one]

/-- A stored form is the Montgomery form of its logical value, reduced (R4). -/
theorem mont_val (x : Nat) : mont (val x) = x % Config.p := by
  apply eq_of_cast_eq (mont_lt _) (Nat.mod_lt _ p_pos)
  rw [cast_mont, cast_val, cast_mod_self, mul_assoc, cast_rInv_mul_radix, mul_one]

/-! ### Sizes and comparisons -/

/-- The radix as the spec writes it (R3). -/
theorem two_pow_eq_radix : (2 : Nat) ^ 768 = Config.radix := rfl

/-- The field has prime order (R2), in the form Mathlib's field lemmas ask for. -/
theorem fact_p_prime : Fact (Nat.Prime Config.p) := ⟨p_prime⟩

/-- Congruence modulo p is equality in Z/p. -/
theorem mod_eq_iff_cast_eq (x y : Nat) : x % Config.p = y % Config.p ↔ (x : Zp) = y :=
  (ZMod.natCast_eq_natCast_iff' x y Config.p).symm

/-- The comparison of FVEQ and EVEQ as a decided proposition (R208). -/
theorem congruentP_eq_decide (x y : Nat) : congruentP x y = decide (x % Config.p = y % Config.p) := by
  unfold congruentP; rw [Bool.eq_iff_iff]; simp

theorem toNat_toF {x : Nat} (h : x < 2 ^ 768) : (toF x).toNat = x := by
  rw [toF, BitVec.toNat_ofNat, Nat.mod_eq_of_lt h]

theorem toNat_toD {x : Nat} (h : x < 2 ^ 1536) : (toD x).toNat = x := by
  rw [toD, BitVec.toNat_ofNat, Nat.mod_eq_of_lt h]

/-- The double-width subtract fits a D register (R148). -/
theorem subLazy_lt {x y : Nat} (hx : x < 2 ^ 1536) : subLazy x y < 2 ^ 1536 := by
  unfold subLazy
  split
  · exact lt_of_le_of_lt (Nat.sub_le _ _) hx
  · have h2 : (0 : Int) < 2 ^ 1536 := by decide +kernel
    have h := Int.emod_lt_of_pos ((x : Int) - y + (Config.p : Int) * Config.radix) h2
    rw [Int.toNat_lt (Int.emod_nonneg _ h2.ne')]
    exact_mod_cast h

/-- The product of two domain operands is in REDC's domain (R192, R250). -/
theorem mul_lt_of_dom {x y : Nat} (hx : dom x) (hy : dom y) : x * y < Config.p * Config.radix := by
  have h : 2 * (2 * Config.p) < Config.radix := by decide +kernel
  calc x * y ≤ (2 * Config.p) * (2 * Config.p) := Nat.mul_le_mul hx.le hy.le
    _ = Config.p * (2 * (2 * Config.p)) := by ring
    _ < _ := Nat.mul_lt_mul_of_pos_left h p_pos

/-- The reduced difference as an integer remainder (R200). -/
theorem coe_subP (x y : Nat) : ((subP x y : Nat) : Int) = ((x : Int) - y) % (Config.p : Int) := by
  unfold subP
  exact Int.toNat_of_nonneg (Int.emod_nonneg _ (by exact_mod_cast p_pos.ne'))

theorem cast_p_sub {x : Nat} (h : x ≤ Config.p) : ((Config.p - x : Nat) : Zp) = -x := by
  rw [Nat.cast_sub h, ZMod.natCast_self, zero_sub]

/-! ### Repeated squaring and the chain's steps (R196, R216) -/

theorem squareTimes_zero (s : Nat) : squareTimes 0 s = s := rfl

theorem squareTimes_succ (n s : Nat) : squareTimes (n + 1) s = squareTimes n (mmul s s) := by
  rw [squareTimes, Function.iterate_succ_apply, squareTimes]

/-- k squarings raise the logical value to 2^k (R196). -/
theorem cast_squareTimes (k x : Nat) :
    ((squareTimes k x : Nat) : Zp) = (x * Config.rInv) ^ 2 ^ k * Config.radix := by
  induction k generalizing x with
  | zero => rw [squareTimes_zero, pow_zero, pow_one, mul_assoc, cast_rInv_mul_radix, mul_one]
  | succ n ih =>
    rw [squareTimes_succ, ih, cast_mmul, pow_succ 2 n, mul_comm (2 ^ n) 2, pow_mul]
    ring

theorem squareTimes_lt {k x : Nat} (h : x < Config.p ∨ 0 < k) : squareTimes k x < Config.p := by
  induction k generalizing x with
  | zero => rw [squareTimes_zero]; exact h.resolve_right (lt_irrefl _)
  | succ n ih => rw [squareTimes_succ]; exact ih (.inl (mmul_lt _ _))

theorem chainStep_lt (table : List Nat) (acc : Nat) (sm : Nat × Nat) :
    chainStep table acc sm < Config.p := mmul_lt _ _

/-- Entry i of the table built from t by factors x (R216). -/
theorem cast_powersFrom (x n t i : Nat) (h : i < n) :
    (((powersFrom x n t).getD i 0 : Nat) : Zp) = t * (x * Config.rInv) ^ i := by
  induction n generalizing t i with
  | zero => exact absurd h (Nat.not_lt_zero _)
  | succ n ih =>
    cases i with
    | zero => rw [powersFrom, List.getD_cons_zero, pow_zero, mul_one]
    | succ i => rw [powersFrom, List.getD_cons_succ, ih _ _ (by omega), cast_mmul, pow_succ]; ring

/-- The table entry of an odd exponent m up to 31 is the power m of the logical value (R216). -/
theorem cast_oddPower (x m : Nat) (h : m % 2 = 1) (h31 : m ≤ 31) :
    ((oddPower (oddPowers x) m : Nat) : Zp) = (x * Config.rInv) ^ m * Config.radix := by
  rw [oddPower, oddPowers, cast_powersFrom _ _ _ _ (by omega), cast_mmul]
  obtain ⟨k, rfl⟩ : ∃ k, m = 2 * k + 1 := ⟨m / 2, by omega⟩
  rw [show (2 * k + 1 - 1) / 2 = k by omega, pow_succ, pow_mul,
    show (x : Zp) * x * Config.rInv * Config.rInv = (x * Config.rInv) ^ 2 by ring]
  linear_combination (-((x * Config.rInv : Zp) ^ 2) ^ k * x) * cast_rInv_mul_radix

/-! ### The extension field's building blocks (R250, R258) -/

theorem karatsubaRe_lt (a b c d : Nat) : karatsubaRe a b c d < Config.p := redc_lt _
theorem karatsubaIm_lt (a b c d : Nat) : karatsubaIm a b c d < Config.p := redc_lt _
theorem normP_lt (a b : Nat) : normP a b < Config.p := redc_lt _

theorem cast_karatsubaRe {a b c d : Nat} (hb : dom b) (hd : dom d) :
    ((karatsubaRe a b c d : Nat) : Zp) = (a * c - b * d) * Config.rInv := by
  rw [karatsubaRe, cast_redc, cast_subLazy ((mul_lt_of_dom hb hd).le.trans (Nat.le_add_left _ _)),
    Nat.cast_mul, Nat.cast_mul]

theorem cast_karatsubaIm (a b c d : Nat) :
    ((karatsubaIm a b c d : Nat) : Zp) = (a * d + b * c) * Config.rInv := by
  rw [karatsubaIm, cast_redc]; push_cast; rw [cast_subP, cast_subP]; ring

theorem cast_normP (a b : Nat) :
    ((normP a b : Nat) : Zp) = ((a * Config.rInv) ^ 2 + (b * Config.rInv) ^ 2) * Config.radix := by
  rw [normP, cast_redc]; push_cast
  linear_combination (-((a : Zp) ^ 2 + b ^ 2) * Config.rInv) * cast_rInv_mul_radix

end Sys2Proof.Machine
end

