-- ==== Sys2Proof/Laws/State.lean ====
section
/-! SUPPORT. One lemma per field for each named update of the state: what it writes and what it leaves. -/

namespace Sys2Proof.Machine

/-! ### setF -/

@[simp] theorem State.setF_f (s : State) (i : FReg) (v : FWord) : (s.setF i v).f = s.f.set i.val v i.isLt := rfl
@[simp] theorem State.setF_d (s : State) (i : FReg) (v : FWord) : (s.setF i v).d = s.d := rfl
@[simp] theorem State.setF_eq (s : State) (i : FReg) (v : FWord) : (s.setF i v).eq = s.eq := rfl
@[simp] theorem State.setF_done (s : State) (i : FReg) (v : FWord) : (s.setF i v).done = s.done := rfl
@[simp] theorem State.setF_err (s : State) (i : FReg) (v : FWord) : (s.setF i v).err = s.err := rfl
@[simp] theorem State.setF_cause (s : State) (i : FReg) (v : FWord) : (s.setF i v).cause = s.cause := rfl
@[simp] theorem State.setF_imm (s : State) (i : FReg) (v : FWord) : (s.setF i v).imm = s.imm := rfl
@[simp] theorem State.setF_ie (s : State) (i : FReg) (v : FWord) : (s.setF i v).ie = s.ie := rfl
@[simp] theorem State.setF_inflight (s : State) (i : FReg) (v : FWord) : (s.setF i v).inflight = s.inflight := rfl
@[simp] theorem State.setF_tick (s : State) (i : FReg) (v : FWord) : (s.setF i v).tick = s.tick := rfl
@[simp] theorem State.setF_inputs (s : State) (i : FReg) (v : FWord) : (s.setF i v).inputs = s.inputs := rfl
@[simp] theorem State.setF_responses (s : State) (i : FReg) (v : FWord) : (s.setF i v).responses = s.responses := rfl

/-! ### setD -/

@[simp] theorem State.setD_f (s : State) (i : DReg) (v : DWord) : (s.setD i v).f = s.f := rfl
@[simp] theorem State.setD_d (s : State) (i : DReg) (v : DWord) : (s.setD i v).d = s.d.set i.val v i.isLt := rfl
@[simp] theorem State.setD_eq (s : State) (i : DReg) (v : DWord) : (s.setD i v).eq = s.eq := rfl
@[simp] theorem State.setD_done (s : State) (i : DReg) (v : DWord) : (s.setD i v).done = s.done := rfl
@[simp] theorem State.setD_err (s : State) (i : DReg) (v : DWord) : (s.setD i v).err = s.err := rfl
@[simp] theorem State.setD_cause (s : State) (i : DReg) (v : DWord) : (s.setD i v).cause = s.cause := rfl
@[simp] theorem State.setD_imm (s : State) (i : DReg) (v : DWord) : (s.setD i v).imm = s.imm := rfl
@[simp] theorem State.setD_ie (s : State) (i : DReg) (v : DWord) : (s.setD i v).ie = s.ie := rfl
@[simp] theorem State.setD_inflight (s : State) (i : DReg) (v : DWord) : (s.setD i v).inflight = s.inflight := rfl
@[simp] theorem State.setD_tick (s : State) (i : DReg) (v : DWord) : (s.setD i v).tick = s.tick := rfl
@[simp] theorem State.setD_inputs (s : State) (i : DReg) (v : DWord) : (s.setD i v).inputs = s.inputs := rfl
@[simp] theorem State.setD_responses (s : State) (i : DReg) (v : DWord) : (s.setD i v).responses = s.responses := rfl

/-! ### setEq -/

@[simp] theorem State.setEq_f (s : State) (b : Bool) : (s.setEq b).f = s.f := rfl
@[simp] theorem State.setEq_d (s : State) (b : Bool) : (s.setEq b).d = s.d := rfl
@[simp] theorem State.setEq_eq (s : State) (b : Bool) : (s.setEq b).eq = b := rfl
@[simp] theorem State.setEq_done (s : State) (b : Bool) : (s.setEq b).done = s.done := rfl
@[simp] theorem State.setEq_err (s : State) (b : Bool) : (s.setEq b).err = s.err := rfl
@[simp] theorem State.setEq_cause (s : State) (b : Bool) : (s.setEq b).cause = s.cause := rfl
@[simp] theorem State.setEq_imm (s : State) (b : Bool) : (s.setEq b).imm = s.imm := rfl
@[simp] theorem State.setEq_ie (s : State) (b : Bool) : (s.setEq b).ie = s.ie := rfl
@[simp] theorem State.setEq_inflight (s : State) (b : Bool) : (s.setEq b).inflight = s.inflight := rfl
@[simp] theorem State.setEq_tick (s : State) (b : Bool) : (s.setEq b).tick = s.tick := rfl
@[simp] theorem State.setEq_inputs (s : State) (b : Bool) : (s.setEq b).inputs = s.inputs := rfl
@[simp] theorem State.setEq_responses (s : State) (b : Bool) : (s.setEq b).responses = s.responses := rfl

/-! ### setImm -/

@[simp] theorem State.setImm_f (s : State) (v : Limb) : (s.setImm v).f = s.f := rfl
@[simp] theorem State.setImm_d (s : State) (v : Limb) : (s.setImm v).d = s.d := rfl
@[simp] theorem State.setImm_eq (s : State) (v : Limb) : (s.setImm v).eq = s.eq := rfl
@[simp] theorem State.setImm_done (s : State) (v : Limb) : (s.setImm v).done = s.done := rfl
@[simp] theorem State.setImm_err (s : State) (v : Limb) : (s.setImm v).err = s.err := rfl
@[simp] theorem State.setImm_cause (s : State) (v : Limb) : (s.setImm v).cause = s.cause := rfl
@[simp] theorem State.setImm_imm (s : State) (v : Limb) : (s.setImm v).imm = v := rfl
@[simp] theorem State.setImm_ie (s : State) (v : Limb) : (s.setImm v).ie = s.ie := rfl
@[simp] theorem State.setImm_inflight (s : State) (v : Limb) : (s.setImm v).inflight = s.inflight := rfl
@[simp] theorem State.setImm_tick (s : State) (v : Limb) : (s.setImm v).tick = s.tick := rfl
@[simp] theorem State.setImm_inputs (s : State) (v : Limb) : (s.setImm v).inputs = s.inputs := rfl
@[simp] theorem State.setImm_responses (s : State) (v : Limb) : (s.setImm v).responses = s.responses := rfl

/-! ### accept -/

@[simp] theorem State.accept_f (s : State) (i : Instr) : (s.accept i).f = s.f := rfl
@[simp] theorem State.accept_d (s : State) (i : Instr) : (s.accept i).d = s.d := rfl
@[simp] theorem State.accept_eq (s : State) (i : Instr) : (s.accept i).eq = s.eq := rfl
@[simp] theorem State.accept_done (s : State) (i : Instr) : (s.accept i).done = false := rfl
@[simp] theorem State.accept_err (s : State) (i : Instr) : (s.accept i).err = s.err := rfl
@[simp] theorem State.accept_cause (s : State) (i : Instr) : (s.accept i).cause = s.cause := rfl
@[simp] theorem State.accept_imm (s : State) (i : Instr) : (s.accept i).imm = s.imm := rfl
@[simp] theorem State.accept_ie (s : State) (i : Instr) : (s.accept i).ie = s.ie := rfl
@[simp] theorem State.accept_inflight (s : State) (i : Instr) : (s.accept i).inflight = some i := rfl
@[simp] theorem State.accept_tick (s : State) (i : Instr) : (s.accept i).tick = s.tick := rfl
@[simp] theorem State.accept_inputs (s : State) (i : Instr) : (s.accept i).inputs = s.inputs := rfl
@[simp] theorem State.accept_responses (s : State) (i : Instr) : (s.accept i).responses = s.responses := rfl

/-! ### finish -/

@[simp] theorem State.finish_f (s : State) : s.finish.f = s.f := rfl
@[simp] theorem State.finish_d (s : State) : s.finish.d = s.d := rfl
@[simp] theorem State.finish_eq (s : State) : s.finish.eq = s.eq := rfl
@[simp] theorem State.finish_done (s : State) : s.finish.done = true := rfl
@[simp] theorem State.finish_err (s : State) : s.finish.err = s.err := rfl
@[simp] theorem State.finish_cause (s : State) : s.finish.cause = s.cause := rfl
@[simp] theorem State.finish_imm (s : State) : s.finish.imm = s.imm := rfl
@[simp] theorem State.finish_ie (s : State) : s.finish.ie = s.ie := rfl
@[simp] theorem State.finish_inflight (s : State) : s.finish.inflight = none := rfl
@[simp] theorem State.finish_tick (s : State) : s.finish.tick = s.tick := rfl
@[simp] theorem State.finish_inputs (s : State) : s.finish.inputs = s.inputs := rfl
@[simp] theorem State.finish_responses (s : State) : s.finish.responses = s.responses := rfl

/-! ### reject -/

@[simp] theorem State.reject_f (s : State) (c : Cause) : (s.reject c).f = s.f := rfl
@[simp] theorem State.reject_d (s : State) (c : Cause) : (s.reject c).d = s.d := rfl
@[simp] theorem State.reject_eq (s : State) (c : Cause) : (s.reject c).eq = s.eq := rfl
@[simp] theorem State.reject_done (s : State) (c : Cause) : (s.reject c).done = (s.done || c.code.isDecode) := rfl
@[simp] theorem State.reject_err (s : State) (c : Cause) : (s.reject c).err = true := rfl
@[simp] theorem State.reject_cause (s : State) (c : Cause) : (s.reject c).cause = (if s.err then s.cause else c) := rfl
@[simp] theorem State.reject_imm (s : State) (c : Cause) : (s.reject c).imm = s.imm := rfl
@[simp] theorem State.reject_ie (s : State) (c : Cause) : (s.reject c).ie = s.ie := rfl
@[simp] theorem State.reject_inflight (s : State) (c : Cause) : (s.reject c).inflight = s.inflight := rfl
@[simp] theorem State.reject_tick (s : State) (c : Cause) : (s.reject c).tick = s.tick := rfl
@[simp] theorem State.reject_inputs (s : State) (c : Cause) : (s.reject c).inputs = s.inputs := rfl
@[simp] theorem State.reject_responses (s : State) (c : Cause) : (s.reject c).responses = s.responses := rfl

/-! ### writeStatus -/

@[simp] theorem State.writeStatus_f (s : State) (v : Limb) : (s.writeStatus v).f = s.f := rfl
@[simp] theorem State.writeStatus_d (s : State) (v : Limb) : (s.writeStatus v).d = s.d := rfl
@[simp] theorem State.writeStatus_eq (s : State) (v : Limb) : (s.writeStatus v).eq = s.eq := rfl
@[simp] theorem State.writeStatus_done (s : State) (v : Limb) : (s.writeStatus v).done = (s.done && !v.getLsbD 1) := rfl
@[simp] theorem State.writeStatus_err (s : State) (v : Limb) : (s.writeStatus v).err = (s.err && !v.getLsbD 3) := rfl
@[simp] theorem State.writeStatus_cause (s : State) (v : Limb) : (s.writeStatus v).cause = (if v.getLsbD 3 then Cause.zero else s.cause) := rfl
@[simp] theorem State.writeStatus_imm (s : State) (v : Limb) : (s.writeStatus v).imm = s.imm := rfl
@[simp] theorem State.writeStatus_ie (s : State) (v : Limb) : (s.writeStatus v).ie = s.ie := rfl
@[simp] theorem State.writeStatus_inflight (s : State) (v : Limb) : (s.writeStatus v).inflight = s.inflight := rfl
@[simp] theorem State.writeStatus_tick (s : State) (v : Limb) : (s.writeStatus v).tick = s.tick := rfl
@[simp] theorem State.writeStatus_inputs (s : State) (v : Limb) : (s.writeStatus v).inputs = s.inputs := rfl
@[simp] theorem State.writeStatus_responses (s : State) (v : Limb) : (s.writeStatus v).responses = s.responses := rfl

/-! ### resetUnit -/

@[simp] theorem State.resetUnit_f (s : State) : s.resetUnit.f = State.reset.f := rfl
@[simp] theorem State.resetUnit_d (s : State) : s.resetUnit.d = State.reset.d := rfl
@[simp] theorem State.resetUnit_eq (s : State) : s.resetUnit.eq = State.reset.eq := rfl
@[simp] theorem State.resetUnit_done (s : State) : s.resetUnit.done = State.reset.done := rfl
@[simp] theorem State.resetUnit_err (s : State) : s.resetUnit.err = State.reset.err := rfl
@[simp] theorem State.resetUnit_cause (s : State) : s.resetUnit.cause = State.reset.cause := rfl
@[simp] theorem State.resetUnit_imm (s : State) : s.resetUnit.imm = State.reset.imm := rfl
@[simp] theorem State.resetUnit_ie (s : State) : s.resetUnit.ie = State.reset.ie := rfl
@[simp] theorem State.resetUnit_inflight (s : State) : s.resetUnit.inflight = State.reset.inflight := rfl
@[simp] theorem State.resetUnit_tick (s : State) : s.resetUnit.tick = s.tick := rfl
@[simp] theorem State.resetUnit_inputs (s : State) : s.resetUnit.inputs = s.inputs := rfl
@[simp] theorem State.resetUnit_responses (s : State) : s.resetUnit.responses = s.responses := rfl

/-! ### advance -/

@[simp] theorem State.advance_f (s : State) : s.advance.f = s.f := rfl
@[simp] theorem State.advance_d (s : State) : s.advance.d = s.d := rfl
@[simp] theorem State.advance_eq (s : State) : s.advance.eq = s.eq := rfl
@[simp] theorem State.advance_done (s : State) : s.advance.done = s.done := rfl
@[simp] theorem State.advance_err (s : State) : s.advance.err = s.err := rfl
@[simp] theorem State.advance_cause (s : State) : s.advance.cause = s.cause := rfl
@[simp] theorem State.advance_imm (s : State) : s.advance.imm = s.imm := rfl
@[simp] theorem State.advance_ie (s : State) : s.advance.ie = s.ie := rfl
@[simp] theorem State.advance_inflight (s : State) : s.advance.inflight = s.inflight := rfl
@[simp] theorem State.advance_tick (s : State) : s.advance.tick = s.tick + 1 := rfl
@[simp] theorem State.advance_inputs (s : State) : s.advance.inputs = s.inputs := rfl
@[simp] theorem State.advance_responses (s : State) : s.advance.responses = s.responses := rfl

/-! ### withInputs -/

@[simp] theorem State.withInputs_f (s : State) (es : List HostEvent) : (s.withInputs es).f = s.f := rfl
@[simp] theorem State.withInputs_d (s : State) (es : List HostEvent) : (s.withInputs es).d = s.d := rfl
@[simp] theorem State.withInputs_eq (s : State) (es : List HostEvent) : (s.withInputs es).eq = s.eq := rfl
@[simp] theorem State.withInputs_done (s : State) (es : List HostEvent) : (s.withInputs es).done = s.done := rfl
@[simp] theorem State.withInputs_err (s : State) (es : List HostEvent) : (s.withInputs es).err = s.err := rfl
@[simp] theorem State.withInputs_cause (s : State) (es : List HostEvent) : (s.withInputs es).cause = s.cause := rfl
@[simp] theorem State.withInputs_imm (s : State) (es : List HostEvent) : (s.withInputs es).imm = s.imm := rfl
@[simp] theorem State.withInputs_ie (s : State) (es : List HostEvent) : (s.withInputs es).ie = s.ie := rfl
@[simp] theorem State.withInputs_inflight (s : State) (es : List HostEvent) : (s.withInputs es).inflight = s.inflight := rfl
@[simp] theorem State.withInputs_tick (s : State) (es : List HostEvent) : (s.withInputs es).tick = s.tick := rfl
@[simp] theorem State.withInputs_inputs (s : State) (es : List HostEvent) : (s.withInputs es).inputs = es := rfl
@[simp] theorem State.withInputs_responses (s : State) (es : List HostEvent) : (s.withInputs es).responses = s.responses := rfl

/-! ### respond -/

@[simp] theorem State.respond_f (s : State) (r : BusResponse) : (s.respond r).f = s.f := rfl
@[simp] theorem State.respond_d (s : State) (r : BusResponse) : (s.respond r).d = s.d := rfl
@[simp] theorem State.respond_eq (s : State) (r : BusResponse) : (s.respond r).eq = s.eq := rfl
@[simp] theorem State.respond_done (s : State) (r : BusResponse) : (s.respond r).done = s.done := rfl
@[simp] theorem State.respond_err (s : State) (r : BusResponse) : (s.respond r).err = s.err := rfl
@[simp] theorem State.respond_cause (s : State) (r : BusResponse) : (s.respond r).cause = s.cause := rfl
@[simp] theorem State.respond_imm (s : State) (r : BusResponse) : (s.respond r).imm = s.imm := rfl
@[simp] theorem State.respond_ie (s : State) (r : BusResponse) : (s.respond r).ie = s.ie := rfl
@[simp] theorem State.respond_inflight (s : State) (r : BusResponse) : (s.respond r).inflight = s.inflight := rfl
@[simp] theorem State.respond_tick (s : State) (r : BusResponse) : (s.respond r).tick = s.tick := rfl
@[simp] theorem State.respond_inputs (s : State) (r : BusResponse) : (s.respond r).inputs = s.inputs := rfl
@[simp] theorem State.respond_responses (s : State) (r : BusResponse) : (s.respond r).responses = s.responses ++ [r] := rfl

/-! ### Two updates of one field -/

@[simp] theorem State.withInputs_withInputs (s : State) (es es' : List HostEvent) :
    (s.withInputs es).withInputs es' = s.withInputs es' := rfl

@[simp] theorem State.setEq_setEq (s : State) (b b' : Bool) : (s.setEq b).setEq b' = s.setEq b' := rfl

end Sys2Proof.Machine
end

