-- ==== Sys2Proof/Laws/Ops.lean ====
section
/-! SUPPORT. The register files, the limbs and the window: what a read gives after each write. -/

namespace Sys2Proof.Machine

/-! ### Register files -/

theorem State.getF_setF (s : State) (i j : FReg) (v : FWord) :
    (s.setF i v).getF j = if j = i then v else s.getF j := by
  have h : (s.setF i v).getF j = if i.val = j.val then v else s.getF j :=
    Vector.getElem_set i.isLt j.isLt
  rw [h]; simp only [Fin.ext_iff, eq_comm]

@[simp] theorem State.getF_setF_self (s : State) (i : FReg) (v : FWord) : (s.setF i v).getF i = v := by
  simp [State.getF_setF]

theorem State.getF_setF_ne (s : State) {i j : FReg} (v : FWord) (h : j ≠ i) :
    (s.setF i v).getF j = s.getF j := by
  simp [State.getF_setF, h]

theorem State.getD_setD (s : State) (i j : DReg) (v : DWord) :
    (s.setD i v).getD j = if j = i then v else s.getD j := by
  have h : (s.setD i v).getD j = if i.val = j.val then v else s.getD j :=
    Vector.getElem_set i.isLt j.isLt
  rw [h]; simp only [Fin.ext_iff, eq_comm]

@[simp] theorem State.getD_setD_self (s : State) (i : DReg) (v : DWord) : (s.setD i v).getD i = v := by
  simp [State.getD_setD]

theorem State.getD_setD_ne (s : State) {i j : DReg} (v : DWord) (h : j ≠ i) :
    (s.setD i v).getD j = s.getD j := by
  simp [State.getD_setD, h]

@[simp] theorem State.getD_setF (s : State) (i : FReg) (v : FWord) (j : DReg) :
    (s.setF i v).getD j = s.getD j := rfl
@[simp] theorem State.getF_setD (s : State) (i : DReg) (v : DWord) (j : FReg) :
    (s.setD i v).getF j = s.getF j := rfl
@[simp] theorem State.natD_setF (s : State) (i : FReg) (v : FWord) (j : DReg) :
    (s.setF i v).natD j = s.natD j := rfl
@[simp] theorem State.natF_setD (s : State) (i : DReg) (v : DWord) (j : FReg) :
    (s.setD i v).natF j = s.natF j := rfl

theorem State.natF_setF (s : State) (i j : FReg) (v : FWord) :
    (s.setF i v).natF j = if j = i then v.toNat else s.natF j := by
  rw [State.natF, State.getF_setF]; split <;> rfl

/-- After reset every operand register holds 0 (R320). -/
@[simp] theorem State.getF_reset (i : FReg) : State.reset.getF i = 0 := by revert i; decide +kernel
@[simp] theorem State.getD_reset (i : DReg) : State.reset.getD i = 0 := by revert i; decide +kernel

/-! ### E pairs (R32) -/

theorem reReg_ne_imReg (j k : EPair) : reReg j ≠ imReg k := by
  intro h; have := congrArg Fin.val h; simp only [reReg, imReg] at this; omega

@[simp] theorem reReg_inj {j k : EPair} : reReg j = reReg k ↔ j = k := by
  constructor
  · intro h; have := congrArg Fin.val h; simp only [reReg] at this; exact Fin.ext (by omega)
  · rintro rfl; rfl

@[simp] theorem imReg_inj {j k : EPair} : imReg j = imReg k ↔ j = k := by
  constructor
  · intro h; have := congrArg Fin.val h; simp only [imReg] at this; exact Fin.ext (by omega)
  · rintro rfl; rfl

theorem State.getF_setE (s : State) (j : EPair) (re im : FWord) (i : FReg) :
    (s.setE j re im).getF i = if i = imReg j then im else if i = reReg j then re else s.getF i := by
  rw [State.setE, State.getF_setF, State.getF_setF]

@[simp] theorem State.getF_setE_re (s : State) (j : EPair) (re im : FWord) :
    (s.setE j re im).getF (reReg j) = re := by
  simp [State.getF_setE, reReg_ne_imReg]

@[simp] theorem State.getF_setE_im (s : State) (j : EPair) (re im : FWord) :
    (s.setE j re im).getF (imReg j) = im := by
  simp [State.getF_setE]

@[simp] theorem State.getD_setE (s : State) (j : EPair) (re im : FWord) (i : DReg) :
    (s.setE j re im).getD i = s.getD i := rfl

/-! ### The domain guard (R15) -/

theorem State.guarded_of_dom {s : State} {xs : List Nat} (h : ∀ x ∈ xs, dom x) (slot v : Nat) :
    s.guarded xs slot v = toF v := if_pos h

theorem State.guarded_of_not_dom {s : State} {xs : List Nat} (h : ¬ ∀ x ∈ xs, dom x) (slot v : Nat) :
    s.guarded xs slot v = Config.anyF s.tick slot := if_neg h

/-! ### Limbs (R10, R76) -/

theorem getLsbD_limbOf {n : Nat} (x : BitVec n) (j i : Nat) :
    (limbOf x j).getLsbD i = (decide (i < 64) && x.getLsbD (64 * j + i)) := by
  simp [limbOf, BitVec.getLsbD_extractLsb']

theorem getLsbD_setLimb {n : Nat} (x : BitVec n) (j : Nat) (v : Limb) (i : Nat) :
    (setLimb x j v).getLsbD i =
      if 64 * j ≤ i ∧ i < 64 * j + 64 then (decide (i < n) && v.getLsbD (i - 64 * j)) else x.getLsbD i := by
  unfold setLimb
  simp only [BitVec.getLsbD_or, BitVec.getLsbD_and, BitVec.getLsbD_not, BitVec.getLsbD_shiftLeft,
    BitVec.getLsbD_setWidth, BitVec.getLsbD_allOnes]
  by_cases hn : i < n
  · by_cases h1 : i < 64 * j
    · simp [hn, h1, not_le.2 h1]
    · have h4 : i - 64 * j < n := by omega
      by_cases h2 : i < 64 * j + 64
      · have h3 : i - 64 * j < 64 := by omega
        simp [hn, h1, h2, h3, h4, not_lt.1 h1]
      · have h3 : ¬ i - 64 * j < 64 := by omega
        rw [BitVec.getLsbD_of_ge v (i - 64 * j) (by omega)]
        simp [hn, h1, h2, h3]
  · simp [hn, BitVec.getLsbD_of_ge x i (not_lt.1 hn)]

/-- Writing limb j and reading it back gives the limb written (R76). -/
theorem limbOf_setLimb_self {n : Nat} (x : BitVec n) {j : Nat} (v : Limb) (h : 64 * j + 64 ≤ n) :
    limbOf (setLimb x j v) j = v := by
  apply BitVec.eq_of_getLsbD_eq
  intro i hi
  have h1 : 64 * j + i < n := by omega
  rw [getLsbD_limbOf, getLsbD_setLimb]
  simp [hi, h1]

/-- Writing limb j leaves every other limb as it was (R76). -/
theorem limbOf_setLimb_ne {n : Nat} (x : BitVec n) {j k : Nat} (v : Limb) (h : k ≠ j) :
    limbOf (setLimb x j v) k = limbOf x k := by
  apply BitVec.eq_of_getLsbD_eq
  intro i hi
  have h1 : ¬ (64 * j ≤ 64 * k + i ∧ 64 * k + i < 64 * j + 64) := by omega
  rw [getLsbD_limbOf, getLsbD_limbOf, getLsbD_setLimb]
  simp [h1]

end Sys2Proof.Machine
end

