-- ==== Sys2Proof/Laws/PerInstr.lean ====
section
/-! SUPPORT. One lemma per command about its encoding: its word selects its own row of the opcode map, meets
the row's fixed bits, and the row's fields give the command back. -/

namespace Sys2Proof.Laws.Encoding

/-- The word of `i` matches the row its OP selects (R105), and that row names `i`. -/
def Statement (i : Instr) : Prop :=
  ∃ row, rowOf (fieldOp (encode i)).toNat = some row ∧ encode i &&& row.mask = row.bits ∧
    row.build (encode i) = i

/-- `Statement` from the row, its mask and its fixed bits. -/
theorem of_row {i : Instr} {row : Row} (hop : rowOf (fieldOp (encode i)).toNat = some row)
    (hmask : encode i &&& row.mask = row.bits) (hbuild : row.build (encode i) = i) : Statement i :=
  ⟨row, hop, hmask, hbuild⟩

theorem mulw (d : DReg) (a : FReg) (b : FReg) : Statement (.mulw d a b) := by
  have hmask : (0xff003fff : CmdWord) = 0x3f#6 ++ 0xc#4 ++ 0x0#4 ++ 0x0#4 ++ 0x3f#6 ++ 0xff#8 := by decide
  refine of_row (by simp only [encode, fieldOp_assembleFields]; rfl) ?_ (by simp [encode])
  simp only [encode, hmask, assembleFields_and, ofDreg_and_12, BitVec.and_zero]
  rfl

theorem redc (d : FReg) (a : DReg) : Statement (.redc d a) := by
  have hmask : (0xfc33ffff : CmdWord) = 0x3f#6 ++ 0x0#4 ++ 0xc#4 ++ 0xf#4 ++ 0x3f#6 ++ 0xff#8 := by decide
  refine of_row (by simp only [encode, fieldOp_assembleFields]; rfl) ?_ (by simp [encode])
  simp only [encode, hmask, assembleFields_and, ofDreg_and_12, BitVec.and_zero]
  rfl

theorem addl (d : FReg) (a : FReg) (b : FReg) : Statement (.addl d a b) := by
  have hmask : (0xfc003fff : CmdWord) = 0x3f#6 ++ 0x0#4 ++ 0x0#4 ++ 0x0#4 ++ 0x3f#6 ++ 0xff#8 := by decide
  refine of_row (by simp only [encode, fieldOp_assembleFields]; rfl) ?_ (by simp [encode])
  simp only [encode, hmask, assembleFields_and, BitVec.and_zero]
  rfl

theorem daddl (d : DReg) (a : DReg) (b : DReg) : Statement (.daddl d a b) := by
  have hmask : (0xff333fff : CmdWord) = 0x3f#6 ++ 0xc#4 ++ 0xc#4 ++ 0xc#4 ++ 0x3f#6 ++ 0xff#8 := by decide
  refine of_row (by simp only [encode, fieldOp_assembleFields]; rfl) ?_ (by simp [encode])
  simp only [encode, hmask, assembleFields_and, ofDreg_and_12]
  rfl

theorem dsubl (d : DReg) (a : DReg) (b : DReg) : Statement (.dsubl d a b) := by
  have hmask : (0xff333fff : CmdWord) = 0x3f#6 ++ 0xc#4 ++ 0xc#4 ++ 0xc#4 ++ 0x3f#6 ++ 0xff#8 := by decide
  refine of_row (by simp only [encode, fieldOp_assembleFields]; rfl) ?_ (by simp [encode])
  simp only [encode, hmask, assembleFields_and, ofDreg_and_12]
  rfl

theorem sred (d : FReg) : Statement (.sred d) := by
  have hmask : (0xfc3fffff : CmdWord) = 0x3f#6 ++ 0x0#4 ++ 0xf#4 ++ 0xf#4 ++ 0x3f#6 ++ 0xff#8 := by decide
  refine of_row (by simp only [encode, fieldOp_assembleFields]; rfl) ?_ (by simp [encode])
  simp only [encode, hmask, assembleFields_and, BitVec.and_zero]
  rfl

theorem fmul (d : FReg) (a : FReg) (b : FReg) : Statement (.fmul d a b) := by
  have hmask : (0xfc003fff : CmdWord) = 0x3f#6 ++ 0x0#4 ++ 0x0#4 ++ 0x0#4 ++ 0x3f#6 ++ 0xff#8 := by decide
  refine of_row (by simp only [encode, fieldOp_assembleFields]; rfl) ?_ (by simp [encode])
  simp only [encode, hmask, assembleFields_and, BitVec.and_zero]
  rfl

theorem fsqr (d : FReg) (a : FReg) : Statement (.fsqr d a) := by
  have hmask : (0xfc03ffff : CmdWord) = 0x3f#6 ++ 0x0#4 ++ 0x0#4 ++ 0xf#4 ++ 0x3f#6 ++ 0xff#8 := by decide
  refine of_row (by simp only [encode, fieldOp_assembleFields]; rfl) ?_ (by simp [encode])
  simp only [encode, hmask, assembleFields_and, BitVec.and_zero]
  rfl

theorem fpow2k (d : FReg) (a : FReg) (k : BitVec 8) : Statement (.fpow2k d a k) := by
  have hmask : (0xfc03ff00 : CmdWord) = 0x3f#6 ++ 0x0#4 ++ 0x0#4 ++ 0xf#4 ++ 0x3f#6 ++ 0x0#8 := by decide
  refine of_row (by simp only [encode, fieldOp_assembleFields]; rfl) ?_ (by simp [encode])
  simp only [encode, hmask, assembleFields_and, BitVec.and_zero]
  rfl

theorem fadd (d : FReg) (a : FReg) (b : FReg) : Statement (.fadd d a b) := by
  have hmask : (0xfc003fff : CmdWord) = 0x3f#6 ++ 0x0#4 ++ 0x0#4 ++ 0x0#4 ++ 0x3f#6 ++ 0xff#8 := by decide
  refine of_row (by simp only [encode, fieldOp_assembleFields]; rfl) ?_ (by simp [encode])
  simp only [encode, hmask, assembleFields_and, BitVec.and_zero]
  rfl

theorem fsub (d : FReg) (a : FReg) (b : FReg) : Statement (.fsub d a b) := by
  have hmask : (0xfc003fff : CmdWord) = 0x3f#6 ++ 0x0#4 ++ 0x0#4 ++ 0x0#4 ++ 0x3f#6 ++ 0xff#8 := by decide
  refine of_row (by simp only [encode, fieldOp_assembleFields]; rfl) ?_ (by simp [encode])
  simp only [encode, hmask, assembleFields_and, BitVec.and_zero]
  rfl

theorem finv (d : FReg) (a : FReg) : Statement (.finv d a) := by
  have hmask : (0xfc03ffff : CmdWord) = 0x3f#6 ++ 0x0#4 ++ 0x0#4 ++ 0xf#4 ++ 0x3f#6 ++ 0xff#8 := by decide
  refine of_row (by simp only [encode, fieldOp_assembleFields]; rfl) ?_ (by simp [encode])
  simp only [encode, hmask, assembleFields_and, BitVec.and_zero]
  rfl

theorem fsqrt (d : FReg) (a : FReg) : Statement (.fsqrt d a) := by
  have hmask : (0xfc03ffff : CmdWord) = 0x3f#6 ++ 0x0#4 ++ 0x0#4 ++ 0xf#4 ++ 0x3f#6 ++ 0xff#8 := by decide
  refine of_row (by simp only [encode, fieldOp_assembleFields]; rfl) ?_ (by simp [encode])
  simp only [encode, hmask, assembleFields_and, BitVec.and_zero]
  rfl

theorem fp34 (d : FReg) (a : FReg) : Statement (.fp34 d a) := by
  have hmask : (0xfc03ffff : CmdWord) = 0x3f#6 ++ 0x0#4 ++ 0x0#4 ++ 0xf#4 ++ 0x3f#6 ++ 0xff#8 := by decide
  refine of_row (by simp only [encode, fieldOp_assembleFields]; rfl) ?_ (by simp [encode])
  simp only [encode, hmask, assembleFields_and, BitVec.and_zero]
  rfl

theorem fsetu (d : FReg) : Statement (.fsetu d) := by
  have hmask : (0xfc3fffff : CmdWord) = 0x3f#6 ++ 0x0#4 ++ 0xf#4 ++ 0xf#4 ++ 0x3f#6 ++ 0xff#8 := by decide
  refine of_row (by simp only [encode, fieldOp_assembleFields]; rfl) ?_ (by simp [encode])
  simp only [encode, hmask, assembleFields_and, BitVec.and_zero]
  rfl

theorem fveq (a : FReg) (b : FReg) : Statement (.fveq a b) := by
  have hmask : (0xffc03fff : CmdWord) = 0x3f#6 ++ 0xf#4 ++ 0x0#4 ++ 0x0#4 ++ 0x3f#6 ++ 0xff#8 := by decide
  refine of_row (by simp only [encode, fieldOp_assembleFields]; rfl) ?_ (by simp [encode])
  simp only [encode, hmask, assembleFields_and, BitVec.and_zero]
  rfl

theorem fmov (d : FReg) (a : FReg) : Statement (.fmov d a) := by
  have hmask : (0xfc03ffff : CmdWord) = 0x3f#6 ++ 0x0#4 ++ 0x0#4 ++ 0xf#4 ++ 0x3f#6 ++ 0xff#8 := by decide
  refine of_row (by simp only [encode, fieldOp_assembleFields]; rfl) ?_ (by simp [encode])
  simp only [encode, hmask, assembleFields_and, BitVec.and_zero]
  rfl

theorem fldc (d : FReg) (c : BitVec 8) : Statement (.fldc d c) := by
  have hmask : (0xfc3fff00 : CmdWord) = 0x3f#6 ++ 0x0#4 ++ 0xf#4 ++ 0xf#4 ++ 0x3f#6 ++ 0x0#8 := by decide
  refine of_row (by simp only [encode, fieldOp_assembleFields]; rfl) ?_ (by simp [encode])
  simp only [encode, hmask, assembleFields_and, BitVec.and_zero]
  rfl

theorem emul (d : EPair) (a : EPair) (b : EPair) : Statement (.emul d a b) := by
  have hmask : (0xfe223fff : CmdWord) = 0x3f#6 ++ 0x8#4 ++ 0x8#4 ++ 0x8#4 ++ 0x3f#6 ++ 0xff#8 := by decide
  refine of_row (by simp only [encode, fieldOp_assembleFields]; rfl) ?_ (by simp [encode])
  simp only [encode, hmask, assembleFields_and, ofEpair_and_8]
  rfl

theorem esqr (d : EPair) (a : EPair) : Statement (.esqr d a) := by
  have hmask : (0xfe23ffff : CmdWord) = 0x3f#6 ++ 0x8#4 ++ 0x8#4 ++ 0xf#4 ++ 0x3f#6 ++ 0xff#8 := by decide
  refine of_row (by simp only [encode, fieldOp_assembleFields]; rfl) ?_ (by simp [encode])
  simp only [encode, hmask, assembleFields_and, ofEpair_and_8]
  rfl

theorem eadd (d : EPair) (a : EPair) (b : EPair) : Statement (.eadd d a b) := by
  have hmask : (0xfe223fff : CmdWord) = 0x3f#6 ++ 0x8#4 ++ 0x8#4 ++ 0x8#4 ++ 0x3f#6 ++ 0xff#8 := by decide
  refine of_row (by simp only [encode, fieldOp_assembleFields]; rfl) ?_ (by simp [encode])
  simp only [encode, hmask, assembleFields_and, ofEpair_and_8]
  rfl

theorem esub (d : EPair) (a : EPair) (b : EPair) : Statement (.esub d a b) := by
  have hmask : (0xfe223fff : CmdWord) = 0x3f#6 ++ 0x8#4 ++ 0x8#4 ++ 0x8#4 ++ 0x3f#6 ++ 0xff#8 := by decide
  refine of_row (by simp only [encode, fieldOp_assembleFields]; rfl) ?_ (by simp [encode])
  simp only [encode, hmask, assembleFields_and, ofEpair_and_8]
  rfl

theorem einv (d : EPair) (a : EPair) : Statement (.einv d a) := by
  have hmask : (0xfe23ffff : CmdWord) = 0x3f#6 ++ 0x8#4 ++ 0x8#4 ++ 0xf#4 ++ 0x3f#6 ++ 0xff#8 := by decide
  refine of_row (by simp only [encode, fieldOp_assembleFields]; rfl) ?_ (by simp [encode])
  simp only [encode, hmask, assembleFields_and, ofEpair_and_8]
  rfl

theorem eveq (a : EPair) (b : EPair) : Statement (.eveq a b) := by
  have hmask : (0xffe23fff : CmdWord) = 0x3f#6 ++ 0xf#4 ++ 0x8#4 ++ 0x8#4 ++ 0x3f#6 ++ 0xff#8 := by decide
  refine of_row (by simp only [encode, fieldOp_assembleFields]; rfl) ?_ (by simp [encode])
  simp only [encode, hmask, assembleFields_and, ofEpair_and_8]
  rfl

end Sys2Proof.Laws.Encoding
end

