-- ==== Sys2Proof/Laws/Step.lean ====
section
/-! SUPPORT. What a command can do to the state, and what a step can be: one lemma each, which later proofs cite
instead of unfolding `exec` or `step`. -/

namespace Sys2Proof.Machine

/-- Everything a command can do to the state: one write of each form, to its write set (R337). -/
theorem exec_cases {i : Instr} {s t : State} (h : exec i s = .next t) :
    (∃ d v, writesF i = [d] ∧ writesD i = [] ∧ writesEq i = false ∧ t = s.setF d v) ∨
    (∃ d v, writesF i = [] ∧ writesD i = [d] ∧ writesEq i = false ∧ t = s.setD d v) ∨
    (∃ d a v, i = .redc d a ∧ t = (s.setD a 0).setF d v) ∨
    (∃ d re im, writesF i = [reReg d, imReg d] ∧ writesD i = [] ∧ writesEq i = false ∧
      t = s.setE d re im) ∨
    (∃ b, writesF i = [] ∧ writesD i = [] ∧ writesEq i = true ∧ t = s.setEq b) := by
  cases i with
  | mulw d _ _ | daddl d _ _ | dsubl d _ _ =>
    cases h; exact .inr (.inl ⟨d, _, rfl, rfl, rfl, rfl⟩)
  | redc d a => cases h; exact .inr (.inr (.inl ⟨d, a, _, rfl, rfl⟩))
  | addl d _ _ | sred d | fmul d _ _ | fsqr d _ | fadd d _ _ | fsub d _ _ | finv d _ | fsqrt d _
  | fp34 d _ | fsetu d | fmov d _ =>
    cases h; exact .inl ⟨d, _, rfl, rfl, rfl, rfl⟩
  | fpow2k d a k =>
    simp only [exec, execFpow2k] at h
    split at h
    · cases h
    · cases h; exact .inl ⟨d, _, rfl, rfl, rfl, rfl⟩
  | fldc d c =>
    simp only [exec, execFldc] at h
    split at h
    · cases h; exact .inl ⟨d, _, rfl, rfl, rfl, rfl⟩
    · cases h
  | fveq _ _ | eveq _ _ => cases h; exact .inr (.inr (.inr (.inr ⟨_, rfl, rfl, rfl, rfl⟩)))
  | emul d _ _ | esqr d _ | eadd d _ _ | esub d _ _ | einv d _ =>
    cases h; exact .inr (.inr (.inr (.inl ⟨d, _, _, rfl, rfl, rfl, rfl⟩)))

/-- A ROM index has a value exactly when FLDC may name it (R34, R108). -/
theorem romValue_isSome (c : BitVec 8) : (romValue c).isSome = decide (c.toNat ≤ 4) := by
  revert c; decide +kernel

/-- A command leaves the shell as it was: only its write set changes (R337). -/
theorem exec_sameShell {i : Instr} {s t : State} (h : exec i s = .next t) : SameShell s t := by
  rcases exec_cases h with ⟨d, v, -, -, -, rfl⟩ | ⟨d, v, -, -, -, rfl⟩ | ⟨d, a, v, -, rfl⟩ |
    ⟨d, re, im, -, -, -, rfl⟩ | ⟨b, -, -, -, rfl⟩ <;>
  exact ⟨rfl, rfl, rfl, rfl, rfl, rfl, rfl, rfl, rfl⟩

/-- The unit's turn with a next state: it is idle, or it runs the command in flight and finishes (R50). -/
theorem unitStep_cases {s t : State} (h : unitStep s = .next t) :
    (s.inflight = none ∧ t = s) ∨
    (∃ i u, s.inflight = some i ∧ exec i s = .next u ∧ t = u.finish) := by
  unfold unitStep at h
  split at h
  · rename_i hi; cases h; exact .inl ⟨hi, rfl⟩
  · rename_i i hi
    split at h
    · rename_i u hu; cases h; exact .inr ⟨i, u, hi, hu, rfl⟩
    · cases h
    · cases h

/-- A step with a next state is the unit's turn or one host event, from the state with one more tick (R80). -/
theorem step_cases {s t : State} (h : step s = .next t) :
    (s.inputs = [] ∧ unitStep s.advance = .next t) ∨
    (∃ rest, s.inputs = .unitTurn :: rest ∧ unitStep (s.advance.withInputs rest) = .next t) ∨
    (∃ w o rest, s.inputs = .read w o :: rest ∧ t = (s.advance.withInputs rest).hostRead w o) ∨
    (∃ w o v rest, s.inputs = .write w o v :: rest ∧ t = (s.advance.withInputs rest).hostWrite w o v) ∨
    (∃ rest, s.inputs = .hardReset :: rest ∧ t = (s.advance.withInputs rest).resetUnit) := by
  unfold step agentStep at h
  split at h
  · rename_i hi; exact .inl ⟨hi, h⟩
  · rename_i e rest hi
    cases e with
    | read w o => cases h; exact .inr (.inr (.inl ⟨w, o, rest, hi, rfl⟩))
    | write w o v => cases h; exact .inr (.inr (.inr (.inl ⟨w, o, v, rest, hi, rfl⟩)))
    | hardReset => cases h; exact .inr (.inr (.inr (.inr ⟨rest, hi, rfl⟩)))
    | unitTurn => exact .inr (.inl ⟨rest, hi, h⟩)

/-- A write to CMD accepts the decoded command, or rejects with one cause (R120). -/
theorem writeCmd_cases (s : State) (v : Limb) :
    (s.busy = true ∧ s.writeCmd v = s.reject (Cause.ofAccess .busyWrite 0xF00)) ∨
    (s.busy = false ∧ ∃ i, decode v = .ok i ∧ s.writeCmd v = s.accept i) ∨
    (s.busy = false ∧ ∃ e, decode v = .error e ∧
      s.writeCmd v = s.reject (Cause.ofCommand e (v.extractLsb' 0 32))) := by
  unfold State.writeCmd
  cases hb : s.busy with
  | true => exact .inl ⟨rfl, rfl⟩
  | false =>
    cases hd : decode v with
    | ok i => exact .inr (.inl ⟨rfl, i, rfl, rfl⟩)
    | error e => exact .inr (.inr ⟨rfl, e, rfl, rfl⟩)

/-- Everything a legal write to the window can do (R71 to R78). -/
theorem writeWindow_cases (s : State) (o : Offset) (v : Limb) :
    (s.busy = true ∧ s.writeWindow o v = s.reject (Cause.ofAccess .busyWrite o)) ∨
    (∃ i x, s.busy = false ∧ s.writeWindow o v = s.setF i x) ∨
    (∃ i x, s.busy = false ∧ s.writeWindow o v = s.setD i x) ∨
    (s.busy = false ∧ s.writeWindow o v = s.setImm v) ∨
    s.writeWindow o v = s.writeCmd v ∨ s.writeWindow o v = s.writeStatus v ∨
    s.writeWindow o v = s.writeCtrl v ∨ s.writeWindow o v = s := by
  unfold State.writeWindow
  cases hb : s.busy <;> cases windowMap o <;> simp

end Sys2Proof.Machine
end

