-- ==== Sys2Proof/Laws/Window.lean ====
section
/-! SUPPORT. The window map at the offsets of the operand limbs (R71), and its reserved ranges (R74). -/

namespace Sys2Proof.Machine

@[simp] theorem windowMap_fLimbOffset (i : FReg) (j : Fin 12) :
    windowMap (fLimbOffset i j.val) = .fLimb i j := by revert i j; decide +kernel

@[simp] theorem windowMap_dLimbOffset (i : DReg) (j : Fin 24) :
    windowMap (dLimbOffset i j.val) = .dLimb i j := by revert i j; decide +kernel

@[simp] theorem legalAccess_fLimbOffset (i : FReg) (j : Fin 12) :
    legalAccess .w64 (fLimbOffset i j.val) = true := by revert i j; decide +kernel

@[simp] theorem legalAccess_dLimbOffset (i : DReg) (j : Fin 24) :
    legalAccess .w64 (dLimbOffset i j.val) = true := by revert i j; decide +kernel

/-- The reserved ranges of the window (R71, R74). -/
theorem windowMap_reserved {o : Offset} (h : 0x600 ≤ o.toNat ∧ o.toNat < 0x800 ∨
    0xB00 ≤ o.toNat ∧ o.toNat < 0xF00 ∨ 0xF30 ≤ o.toNat) : windowMap o = .reserved := by
  unfold windowMap
  rw [dif_neg (by omega)]
  split
  · rfl
  · rw [dif_neg (by omega), if_neg (by omega), if_neg (by omega), if_neg (by omega), if_neg (by omega),
      if_neg (by omega), if_neg (by omega)]

/-- Byte k of a residue, read through its limb (R10, R72). -/
theorem extractLsb'_limbOf {n : Nat} (x : BitVec n) (k : Nat) :
    (limbOf x (k / 8)).extractLsb' (8 * (k % 8)) 8 = x.extractLsb' (8 * k) 8 := by
  apply BitVec.eq_of_getLsbD_eq
  intro i hi
  simp only [limbOf, BitVec.getLsbD_extractLsb', hi, decide_true, Bool.true_and]
  rw [decide_eq_true (by omega), Bool.true_and]
  congr 1
  omega

end Sys2Proof.Machine
end

