-- ==== Sys2Proof/Tests/Slice0.lean ====
section
/-! SUPPORT. Tests: well-formedness, decoding of words written from the spec's fields, the spec's vectors one step
each, the host's accesses, and for each statement with hypotheses a state and operands that meet them. -/

namespace Sys2Proof.Machine.Tests

-- one kernel evaluation at a time: many at once ask for more threads than the sandbox has memory for
set_option Elab.async false

/-! ### Helpers -/

/-- The reset state with these F and D registers preloaded. -/
def pre (fs : List (FReg × Nat)) (ds : List (DReg × Nat) := []) : State :=
  ds.foldl (fun s x => s.setD x.1 (toD x.2)) (fs.foldl (fun s x => s.setF x.1 (toF x.2)) State.reset)

/-- The state after the one step that runs the command word `w`. -/
def ran (w : Nat) (s : State) : Option State :=
  match step (s.withFetchWord 32 w) with
  | .next t => some t
  | .fault _ => none
  | .refused _ => none

/-- What F[i] holds after the command word `w`. -/
def ranF (w : Nat) (i : FReg) (s : State) : Option Nat := (ran w s).map fun t => t.natF i

/-- What D[i] holds after the command word `w`. -/
def ranD (w : Nat) (i : DReg) (s : State) : Option Nat := (ran w s).map fun t => t.natD i

/-- EQ after the command word `w`. -/
def ranEq (w : Nat) (s : State) : Option Bool := (ran w s).map fun t => t.eq

/-- STATUS and CAUSE after a write to CMD. -/
def cmdWrite (v : Limb) (s : State) : Limb × Limb :=
  ((s.hostWrite .w64 0xF00 v).statusWord, (s.hostWrite .w64 0xF00 v).cause.word)

/-- Mont(p − k), the stored form of −k (95_test_vectors.md). -/
def montNeg (k : Nat) : Nat := mont (Config.p - k)

/-! ### Well-formedness (R108): each check refuses an ill-formed term -/

theorem test_wf_fpow2k_k0_refused : (Instr.fpow2k 0 1 0).wf = false := by decide
theorem test_wf_fpow2k_limits : (Instr.fpow2k 0 1 1).wf = true ∧ (Instr.fpow2k 15 15 255).wf = true := by decide
theorem test_wf_fldc_c5_refused : (Instr.fldc 0 5).wf = false ∧ (Instr.fldc 0 255).wf = false := by decide
theorem test_wf_fldc_limits : (Instr.fldc 0 0).wf = true ∧ (Instr.fldc 15 4).wf = true := by decide

/-! ### Decoding (R100 to R105): high half, OP, d, a, b, reserved, imm8, written out field by field -/

theorem test_decode_mulw :
    decode (0#32 ++ 0b000001#6 ++ 0b0011#4 ++ 0b1111#4 ++ 0b1000#4 ++ 0#6 ++ 0#8) = .ok (.mulw 3 15 8) := by decide
theorem test_decode_redc :
    decode (0#32 ++ 0b000010#6 ++ 0b1001#4 ++ 0b0010#4 ++ 0#4 ++ 0#6 ++ 0#8) = .ok (.redc 9 2) := by decide
theorem test_decode_addl :
    decode (0#32 ++ 0b000011#6 ++ 0b1000#4 ++ 0b0100#4 ++ 0b0001#4 ++ 0#6 ++ 0#8) = .ok (.addl 8 4 1) := by decide
theorem test_decode_daddl :
    decode (0#32 ++ 0b000100#6 ++ 0b0010#4 ++ 0b0001#4 ++ 0b0011#4 ++ 0#6 ++ 0#8) = .ok (.daddl 2 1 3) := by decide
theorem test_decode_dsubl :
    decode (0#32 ++ 0b000101#6 ++ 0b0001#4 ++ 0b0011#4 ++ 0b0010#4 ++ 0#6 ++ 0#8) = .ok (.dsubl 1 3 2) := by decide
theorem test_decode_sred :
    decode (0#32 ++ 0b000110#6 ++ 0b1110#4 ++ 0#4 ++ 0#4 ++ 0#6 ++ 0#8) = .ok (.sred 14) := by decide
theorem test_decode_fmul :
    decode (0#32 ++ 0b001000#6 ++ 0b0011#4 ++ 0b0001#4 ++ 0b0010#4 ++ 0#6 ++ 0#8) = .ok (.fmul 3 1 2) := by decide
theorem test_decode_fsqr :
    decode (0#32 ++ 0b001001#6 ++ 0b1010#4 ++ 0b0101#4 ++ 0#4 ++ 0#6 ++ 0#8) = .ok (.fsqr 10 5) := by decide
theorem test_decode_fpow2k :
    decode (0#32 ++ 0b001010#6 ++ 0b0111#4 ++ 0b1011#4 ++ 0#4 ++ 0#6 ++ 0b10000001#8) = .ok (.fpow2k 7 11 129) := by
  decide
theorem test_decode_fadd :
    decode (0#32 ++ 0b001011#6 ++ 0b0001#4 ++ 0b0010#4 ++ 0b0100#4 ++ 0#6 ++ 0#8) = .ok (.fadd 1 2 4) := by decide
theorem test_decode_fsub :
    decode (0#32 ++ 0b001100#6 ++ 0b0100#4 ++ 0b0010#4 ++ 0b0001#4 ++ 0#6 ++ 0#8) = .ok (.fsub 4 2 1) := by decide
theorem test_decode_finv :
    decode (0#32 ++ 0b001101#6 ++ 0b0001#4 ++ 0b1100#4 ++ 0#4 ++ 0#6 ++ 0#8) = .ok (.finv 1 12) := by decide
theorem test_decode_fsqrt :
    decode (0#32 ++ 0b001110#6 ++ 0b0010#4 ++ 0b1101#4 ++ 0#4 ++ 0#6 ++ 0#8) = .ok (.fsqrt 2 13) := by decide
theorem test_decode_fp34 :
    decode (0#32 ++ 0b001111#6 ++ 0b0011#4 ++ 0b1110#4 ++ 0#4 ++ 0#6 ++ 0#8) = .ok (.fp34 3 14) := by decide
theorem test_decode_fsetu :
    decode (0#32 ++ 0b010000#6 ++ 0b0110#4 ++ 0#4 ++ 0#4 ++ 0#6 ++ 0#8) = .ok (.fsetu 6) := by decide
theorem test_decode_fveq :
    decode (0#32 ++ 0b010001#6 ++ 0#4 ++ 0b0101#4 ++ 0b1001#4 ++ 0#6 ++ 0#8) = .ok (.fveq 5 9) := by decide
theorem test_decode_fmov :
    decode (0#32 ++ 0b010010#6 ++ 0b1101#4 ++ 0b0110#4 ++ 0#4 ++ 0#6 ++ 0#8) = .ok (.fmov 13 6) := by decide
theorem test_decode_fldc :
    decode (0#32 ++ 0b010011#6 ++ 0b0101#4 ++ 0#4 ++ 0#4 ++ 0#6 ++ 0b00000100#8) = .ok (.fldc 5 4) := by decide
theorem test_decode_emul :
    decode (0#32 ++ 0b011000#6 ++ 0b0111#4 ++ 0b0010#4 ++ 0b0101#4 ++ 0#6 ++ 0#8) = .ok (.emul 7 2 5) := by decide
theorem test_decode_esqr :
    decode (0#32 ++ 0b011001#6 ++ 0b0100#4 ++ 0b0110#4 ++ 0#4 ++ 0#6 ++ 0#8) = .ok (.esqr 4 6) := by decide
theorem test_decode_eadd :
    decode (0#32 ++ 0b011010#6 ++ 0b0001#4 ++ 0b0011#4 ++ 0b0110#4 ++ 0#6 ++ 0#8) = .ok (.eadd 1 3 6) := by decide
theorem test_decode_esub :
    decode (0#32 ++ 0b011011#6 ++ 0b0110#4 ++ 0b0011#4 ++ 0b0001#4 ++ 0#6 ++ 0#8) = .ok (.esub 6 3 1) := by decide
theorem test_decode_einv :
    decode (0#32 ++ 0b011100#6 ++ 0b0010#4 ++ 0b0111#4 ++ 0#4 ++ 0#6 ++ 0#8) = .ok (.einv 2 7) := by decide
theorem test_decode_eveq :
    decode (0#32 ++ 0b011101#6 ++ 0#4 ++ 0b0011#4 ++ 0b0111#4 ++ 0#6 ++ 0#8) = .ok (.eveq 3 7) := by decide

/-- V80 to V82: reserved opcodes. -/
theorem test_decode_illegal_opcode : decode 0 = .error .illegalOpcode ∧ decode 0x1c000000 = .error .illegalOpcode ∧
    decode 0xfc000000 = .error .illegalOpcode := by decide
/-- V83 to V89: reserved bits, before the operand check. -/
theorem test_decode_reserved_field : decode 0x20000100 = .error .reservedField ∧
    decode 0x120000000 = .error .reservedField ∧ decode 0x08100000 = .error .reservedField ∧
    decode 0x62000000 = .error .reservedField ∧ decode 0x44400000 = .error .reservedField ∧
    decode 0x20000001 = .error .reservedField ∧ decode 0x28000100 = .error .reservedField := by decide
/-- V33 and V60: k = 0 and c = 5. -/
theorem test_decode_bad_operand : decode 0x28040000 = .error .badOperand ∧ decode 0x4c000005 = .error .badOperand := by
  decide

/-! ### The commands, by the vectors of 95_test_vectors.md -/

/-- V1, V2. -/
theorem test_mulw : ranD 0x04048000 0 (pre [(1, 3), (2, 5)]) = some 15 ∧
    ranD 0x04444000 1 (pre [(1, 2 ^ 768 - 1)]) = some (2 ^ 1536 - 2 ^ 769 + 1) := by decide +kernel
/-- V4, V6. -/
theorem test_redc : ranF 0x08000000 0 (pre [] [(0, Config.radix % Config.p)]) = some 1 ∧
    ranF 0x08800000 2 (pre [] [(0, Config.p * 2 ^ 768 - 1)]) = some (Config.p - Config.rInv) := by decide +kernel
/-- V7: out of the domain the source is still cleared. -/
theorem test_redc_clears : ranD 0x08040000 1 (pre [(0, 7)] [(1, Config.p * 2 ^ 768)]) = some 0 := by decide +kernel
/-- V9, V10. -/
theorem test_addl : ranF 0x0cc48000 3 (pre [(1, Config.p - 1), (2, Config.p - 1)]) = some (2 * Config.p - 2) ∧
    ranF 0x0cc48000 3 (pre [(1, 2 ^ 768 - 1), (2, 1)]) = some 0 := by decide +kernel
/-- V12. -/
theorem test_daddl : ranD 0x10804000 2 (pre [] [(0, 15), (1, 2 ^ 1536 - 1)]) = some 14 := by decide +kernel
/-- V13, V14. -/
theorem test_dsubl : ranD 0x14804000 2 (pre [] [(0, 15), (1, 5)]) = some 10 ∧
    ranD 0x14804000 2 (pre [] [(0, 0), (1, 1)]) = some (Config.p * 2 ^ 768 - 1) := by decide +kernel
/-- V15: the congruence is lost. -/
theorem test_dsubl_wraps : ranD 0x14804000 2 (pre [] [(0, 0), (1, Config.p * 2 ^ 768 + 1)]) = some (2 ^ 1536 - 1) := by
  decide +kernel
/-- V18, V20. -/
theorem test_sred : ranF 0x18000000 0 (pre [(0, Config.p)]) = some 0 ∧
    ranF 0x18000000 0 (pre [(0, 2 ^ 768 - 1)]) = some (2 ^ 768 - 1 - Config.p) := by decide +kernel
/-- V22, V23. -/
theorem test_fsetu : ranF 0x40000000 0 (State.reset.setImm 1) = some (Config.radix % Config.p) ∧
    ranF 0x41c00000 7 (State.reset.setImm 0xffffffffffffffff) = some
      0x181b3c627ad6fd998269b663f8886af12d1ce0de2fd98b6b71ec674b4d20b59497ff65bbe0ff0d6d377f2eca668e562000000000000000000000000000000000000000000000000000000000000000000000000249ad67c3ffede283945a := by
  decide +kernel
/-- V24, V26. -/
theorem test_fmul : ranF 0x20c48000 3 (pre [(1, mont 3), (2, mont 5)]) = some (mont 15) ∧
    ranF 0x20048000 0 (pre [(1, mont 3 + Config.p), (2, mont 5)]) = some (mont 15) := by decide +kernel
/-- V28: an operand 2p is out of the domain; the command completes and its operands stay. -/
theorem test_fmul_out_of_domain :
    (ran 0x20048000 (pre [(1, 2 * Config.p), (2, mont 5), (0, 7)])).map
      (fun t => (t.natF 1, t.natF 2, t.busy, t.done, t.err)) =
    some (2 * Config.p, mont 5, false, true, false) := by decide +kernel
/-- V29. -/
theorem test_fsqr : ranF 0x24440000 1 (pre [(1, mont 3)]) = some (mont 9) := by decide +kernel
/-- V31, V32. -/
theorem test_fpow2k : ranF 0x28440003 1 (pre [(1, mont 3)]) = some (mont 6561) ∧
    ranF 0x280400ff 0 (pre [(1, mont 2)]) = some
      0x6f2c8238d44f05e732614a1fca31601d7d2833e2e09337fd78ce09b738645fe3a51b3520b90993206423ddff112bf1247d38eb9520c8802169665bbce4d3765a4dbb1d809f6ff2f541c42529bdc192f99e2678fed543b77df0ae9c13d8a6 := by
  decide +kernel
/-- V35. -/
theorem test_fadd : ranF 0x2c048000 0 (pre [(1, 2 * Config.p - 1), (2, 2 * Config.p - 1)]) = some (Config.p - 2) := by
  decide +kernel
/-- V36, V38. -/
theorem test_fsub : ranF 0x30048000 0 (pre [(1, 0), (2, mont 1)]) = some (montNeg 1) ∧
    ranF 0x30048000 0 (pre [(1, Config.p), (2, 0)]) = some 0 := by decide +kernel
/-- V39, V41. -/
theorem test_finv : ranF 0x34040000 0 (pre [(1, mont 2)]) = some
      0x4ea07cff6e7f0f8511860666d227e903b49f175ce04f6876280d41a41b52a206996ca9a378a39c8a2434c0aa7287b8e0000000000000000000000000000000000000000000000000000000000000000000000000000000000000000124d6 ∧
    ranF 0x34040000 0 (pre [(1, Config.p)]) = some 0 := by decide +kernel
/-- V44, V46. -/
theorem test_fsqrt : ranF 0x38040000 0 (pre [(1, mont 4)]) = some (mont 2) ∧
    ranF 0x38040000 0 (pre [(1, montNeg 1)]) = some (mont 1) := by decide +kernel
/-- V49. -/
theorem test_fp34 : ranF 0x3c040000 0 (pre [(1, montNeg 1)]) = some (montNeg 1) := by decide +kernel
/-- V52, V53. -/
theorem test_fveq : ranEq 0x44048000 (pre [(1, mont 1), (2, mont 2)]) = some false ∧
    ranEq 0x44048000 (pre [(1, 2 ^ 768 - 1), (2, (2 ^ 768 - 1) % Config.p)]) = some true := by decide +kernel
/-- V55. -/
theorem test_fmov : ranF 0x48040000 0 (pre [(1, 2 * Config.p - 2)]) = some (2 * Config.p - 2) := by decide +kernel
/-- V56, V59. -/
theorem test_fldc : ranF 0x4d400001 5 State.reset = some (2 ^ 768 % Config.p) ∧
    ranF 0x4c000004 0 State.reset = some Config.p := by decide +kernel
/-- V61. -/
theorem test_emul :
    (ran 0x60048000 (pre [(2, mont 1), (3, mont 2), (4, mont 3), (5, mont 4)])).map (fun t => (t.natF 0, t.natF 1)) =
    some (montNeg 5, mont 10) := by decide +kernel
/-- V64: the destination is both sources. -/
theorem test_emul_in_place : (ran 0x60444000 (pre [(2, mont 1), (3, mont 2)])).map (fun t => (t.natF 2, t.natF 3)) =
    some (montNeg 3, mont 4) := by decide +kernel
/-- V66. -/
theorem test_esqr : (ran 0x64040000 (pre [(2, mont 1), (3, mont 2)])).map (fun t => (t.natF 0, t.natF 1)) =
    some (montNeg 3, mont 4) := by decide +kernel
/-- V69. -/
theorem test_eadd : (ran 0x68048000 (pre [(2, 2 * Config.p - 1), (4, 1)])).map (fun t => (t.natF 0, t.natF 1)) =
    some (0, 0) := by decide +kernel
/-- V70. -/
theorem test_esub :
    (ran 0x6c048000 (pre [(2, mont 1), (3, mont 2), (4, mont 3), (5, mont 4)])).map (fun t => (t.natF 0, t.natF 1)) =
    some (montNeg 2, montNeg 2) := by decide +kernel
/-- V72. -/
theorem test_einv : (ran 0x70040000 (pre [(2, mont 1), (3, mont 2)])).map (fun t => (t.natF 0, t.natF 1)) =
    some (0x35d48fd9c4053c38f0bbedb4e68ade486c73b57c04c7c50bc81a120a6c9f3953c2ca47d9592605ccf962f575df8b467ccccccccccccccccccccccccccccccccccccccccccccccccccccccccccccccccccccccccccccccccccccccccd41ef,
      0x43cb58e6f1195a0af27bc510f50c8d1dc1cf1ba4db87e370833b2d70f3867ee158584451a2ad852a3bf5f0cb99261b666666666666666666666666666666666666666666666666666666666666666666666666666666666666666657c21) := by
  decide +kernel
/-- V74: 1/i = −i, in place. -/
theorem test_einv_of_i : (ran 0x70440000 (pre [(2, 0), (3, mont 1)])).map (fun t => (t.natF 2, t.natF 3)) =
    some (0, montNeg 1) := by decide +kernel
/-- V77, V78. -/
theorem test_eveq : ranEq 0x74048000 (pre [(2, Config.p), (3, mont 2), (4, 0), (5, mont 2 + Config.p)]) = some true ∧
    ranEq 0x74048000 (pre [(2, mont 1), (3, mont 2), (4, mont 1), (5, mont 3)]) = some false := by decide +kernel

/-! ### The host's accesses and the shell -/

/-- V80, V84, V89: a refused write sets DONE and ERR and records its low half. -/
theorem test_reject_status_cause : cmdWrite 0 State.reset = (0xa, 0x1) ∧
    cmdWrite 0x120000000 State.reset = (0xa, 0x2000000000000002) ∧
    cmdWrite 0x28000100 State.reset = (0xa, 0x2800010000000002) := by decide +kernel
/-- V33, V90: BAD_OPERAND, and CAUSE keeps the first. -/
theorem test_reject_bad_operand : cmdWrite 0x28040000 State.reset = (0xa, 0x2804000000000003) ∧
    cmdWrite 0x4c000007 (State.reset.hostWrite .w64 0xF00 0) = (0xa, 0x1) := by decide +kernel
/-- V100: writes to CMD and to F1 while busy; CAUSE keeps the first and the command stays in flight. -/
theorem test_busy_write :
    let s := ((State.reset.accept (.fmul 0 1 2)).hostWrite .w64 0xF00 0x2c048000).hostWrite .w64 0x060 0
    s.cause.word = 0xf000004 ∧ s.statusWord = 0x9 ∧ s.inflight = some (.fmul 0 1 2) := by decide +kernel
/-- V101, V102: a 32-bit read and a misaligned write. -/
theorem test_bad_access :
    (State.reset.hostRead .w32 0xF08).cause.word = 0xf080005 ∧ (State.reset.hostRead .w32 0xF08).statusWord = 0x8 ∧
    (State.reset.hostWrite .w64 0x004 0x1234).cause.word = 0x40005 ∧
    (State.reset.hostWrite .w64 0x004 0x1234).natF 0 = 0 := by decide +kernel
/-- V103: clearing ERR, then DONE. -/
theorem test_status_clear :
    let s : State := { State.reset with err := true, done := true, cause := Cause.ofAccess .busyWrite 0xF00 }
    (s.hostWrite .w64 0xF08 0x8).statusWord = 0x2 ∧ (s.hostWrite .w64 0xF08 0x8).cause.word = 0 ∧
    ((s.hostWrite .w64 0xF08 0x8).hostWrite .w64 0xF08 0x2).statusWord = 0 := by decide +kernel
/-- V104: a soft reset while a command is in flight. -/
theorem test_soft_reset :
    let s := { ((pre [(1, mont 2)]).accept (.finv 0 1)) with ie := true }.hostWrite .w64 0xF20 3
    s.inflight = none ∧ s.natF 1 = 0 ∧ s.statusWord = 0 ∧ s.ie = false ∧ s.irq = false := by decide +kernel
/-- V105: ID, and a reserved offset. -/
theorem test_id_and_reserved :
    (State.reset.hostRead .w64 0xF28).responses = [.readData 0x0000400c02ef0001] ∧
    (State.reset.hostRead .w64 0x600).responses = [.readData 0] ∧
    (State.reset.hostWrite .w64 0xF10 7).cause = Cause.zero := by decide +kernel
/-- V106: irq after the completion of FSQR. -/
theorem test_irq_on_completion :
    (ran 0x24040000 { pre [(1, mont 3)] with ie := true }).map (fun t => (t.irq, t.natF 0)) = some (true, mont 9) := by
  decide +kernel
/-- V108: limb 23 of D3 is at 0xAF8. -/
theorem test_limb_write :
    (State.reset.hostWrite .w64 0xAF8 0xdeadbeef).natD 3 = 0xdeadbeef * 2 ^ 1472 := by decide +kernel
/-- R110, R111: the text of FMUL and of FPOW2K, and the words of FNEG. -/
theorem test_assembly : assembly (.fmul 3 1 2) = "FMUL f3, f1, f2" ∧ assembly (.fpow2k 0 0 5) = "FPOW2K f0, f0, 5" ∧
    expand (.fneg 7 1) = [.fldc 7 0, .fsub 7 7 1] := by decide
/-- R344: the counts of one P34, one FINV and one EINV. -/
theorem test_op_counts : p34Mms = 897 ∧ (opCount (.finv 0 0)).mms = 900 ∧ (opCount (.einv 0 0)).mms = 902 := by
  decide +kernel
/-- With no event to come and no command in flight a step only counts itself (log 5, log 15). -/
theorem test_idle_step : step State.reset = .next { State.reset with tick := 1 } := rfl

/-! ### Witnesses: for each statement with hypotheses, a state and operands that meet them together -/

/-- A state with FMUL f0, f1, f2 in flight. -/
def busyState : State := (pre [(1, mont 3), (2, mont 5)]).accept (.fmul 0 1 2)

/-- F1 and F2 at the top of the domain, F3 just outside it, F4 = p, F5 = 0. -/
def edgeState : State :=
  pre [(1, 2 * Config.p - 1), (2, 2 * Config.p - 1), (3, 2 * Config.p), (4, Config.p), (5, 0)]

theorem test_hyp_DecodeInvertsEncode : (Instr.mulw 3 15 15).wf = true ∧ (Instr.fldc 15 4).wf = true := by decide +kernel
theorem test_hyp_AcceptedWriteIsAnEncoding : decode 0x20c48000 = .ok (.fmul 3 1 2) := by decide +kernel
theorem test_hyp_ReservedOpcodesAreIllegal :
    State.reset.busy = false ∧ decode 0x1c000000 = .error .illegalOpcode ∧
    decode 0x50000000 = .error .illegalOpcode ∧ decode 0x5c000000 = .error .illegalOpcode ∧
    decode 0x78000000 = .error .illegalOpcode := by decide +kernel
theorem test_hyp_ReservedFieldsAreRejected :
    (rowOf ((0x20000100 : Limb).extractLsb' 26 6).toNat).isSome = true ∧
    (rowOf ((0x120000000 : Limb).extractLsb' 26 6).toNat).isSome = true ∧ State.reset.busy = false ∧
    decode 0x20000100 = .error .reservedField ∧ decode 0x120000000 = .error .reservedField := by decide +kernel
theorem test_hyp_BadOperandsAreRejected : State.reset.busy = false ∧ decode 0x28040000 = .error .badOperand ∧
    decode 0x4c0000ff = .error .badOperand := by decide +kernel
theorem test_hyp_StepRunsTheLoadedCommand :
    decodeTableWord 32 0x20c48000 = some (.fmul 3 1 2) ∧
    (busyState.inflight = some (.fmul 0 1 2) ∧ busyState.inputs = []) ∧
    (busyState.withInputs [.unitTurn, .hardReset]).inflight = some (.fmul 0 1 2) ∧
    (busyState.withInputs [.unitTurn, .hardReset]).inputs = .unitTurn :: [.hardReset] := by decide +kernel
theorem test_hyp_StepTakesOneEvent :
    (State.reset.withInputs [.read .w64 0xF08]).inputs = .read .w64 0xF08 :: [] ∧
    (State.reset.withInputs [.write .w64 0xF18 7]).inputs = .write .w64 0xF18 7 :: [] ∧
    (State.reset.withInputs [.hardReset]).inputs = .hardReset :: [] ∧
    (State.reset.withInputs [.unitTurn]).inputs = .unitTurn :: [] ∧ State.reset.inflight = none ∧
    State.reset.inputs = [] := by decide +kernel
theorem test_hyp_CommandWriteAcceptsOrRejects : busyState.busy = true ∧ State.reset.busy = false := by decide +kernel
theorem test_hyp_RejectionEffect : Width.w32 ≠ .w64 ∧ (0x004 : Offset).toNat % 8 ≠ 0 := by decide +kernel

/-- A command in flight, and an idle unit that has recorded a rejection. -/
theorem inv_running : Inv (State.reset.accept (.fpow2k 0 1 1)) := by
  refine ⟨fun _ => rfl, by decide +kernel, ⟨fun _ => rfl, fun h => absurd h (by decide +kernel), fun _ => rfl⟩,
    fun i h => ?_⟩
  cases h; decide

theorem inv_rejected : Inv (State.reset.reject (Cause.ofCommand .badOperand 0x28040000)) := by
  refine ⟨fun h => absurd h (by decide +kernel), by decide +kernel,
    ⟨fun h => absurd h (by decide +kernel), fun _ => rfl, fun h => absurd h (by decide +kernel)⟩,
    fun i h => absurd h (Option.some_ne_none i).symm⟩

theorem test_hyp_StepKeepsInvariant :
    (Inv (State.reset.accept (.fpow2k 0 1 1)) ∧ ∃ t, step (State.reset.accept (.fpow2k 0 1 1)) = .next t) ∧
    Inv (State.reset.reject (Cause.ofCommand .badOperand 0x28040000)) ∧
    ∃ t, step (State.reset.reject (Cause.ofCommand .badOperand 0x28040000)) = .next t :=
  ⟨⟨inv_running, _, rfl⟩, inv_rejected, _, rfl⟩
theorem test_hyp_StepNeverStops : Inv (State.reset.accept (.fpow2k 0 1 1)) := inv_running
theorem test_hyp_IllFormedCommandsFault : 4 < (5 : BitVec 8).toNat ∧ 4 < (255 : BitVec 8).toNat := by decide +kernel
theorem test_hyp_RedcReduces :
    (pre [] [(1, Config.p * 2 ^ 768 - 1)]).natD 1 < Config.p * 2 ^ 768 ∧ State.reset.natD 0 < Config.p * 2 ^ 768 := by
  decide +kernel
/-- D1 is p·2^768 above D0 and D2 one more: the largest borrow that keeps the congruence, and the next one. -/
theorem test_hyp_DsublSubtracts :
    let s := pre [] [(0, 0), (1, Config.p * 2 ^ 768), (2, Config.p * 2 ^ 768 + 1)]
    s.natD 0 ≤ s.natD 0 ∧ (s.natD 0 < s.natD 1 ∧ s.natD 1 - s.natD 0 ≤ Config.p * 2 ^ 768) ∧
    (s.natD 0 < s.natD 2 ∧ ¬ s.natD 2 - s.natD 0 ≤ Config.p * 2 ^ 768) := by decide +kernel
theorem test_hyp_SredSubtractsOnce :
    Config.p ≤ edgeState.natF 4 ∧ (pre [(0, Config.p - 1)]).natF 0 < Config.p ∧
    edgeState.natF 1 < 2 * Config.p := by decide +kernel
/-- Both clauses of FMUL, FADD, FSUB and of the one-operand field commands: 2p − 1 is inside, 2p outside. -/
theorem test_hyp_FmulMultiplies :
    (dom (edgeState.natF 1) ∧ dom (edgeState.natF 2)) ∧ (¬ dom (edgeState.natF 3) ∨ ¬ dom (edgeState.natF 1)) := by
  decide +kernel
theorem test_hyp_FaddAdds :
    (dom (edgeState.natF 1) ∧ dom (edgeState.natF 2)) ∧ (¬ dom (edgeState.natF 1) ∨ ¬ dom (edgeState.natF 3)) := by
  decide +kernel
theorem test_hyp_FsubSubtracts :
    (dom (edgeState.natF 5) ∧ dom (edgeState.natF 1)) ∧ (¬ dom (edgeState.natF 3) ∨ ¬ dom (edgeState.natF 3)) := by
  decide +kernel
theorem test_hyp_FsqrSquares : dom (edgeState.natF 1) ∧ ¬ dom (edgeState.natF 3) := by decide +kernel
theorem test_hyp_FpowIsRepeatedSquaring :
    ((1 : BitVec 8) ≠ 0 ∧ (255 : BitVec 8) ≠ 0) ∧ dom (edgeState.natF 1) ∧ ¬ dom (edgeState.natF 3) := by
  decide +kernel
theorem test_hyp_FinvIsFermatPower :
    (dom (edgeState.natF 4) ∧ edgeState.natF 4 % Config.p = 0) ∧ ¬ dom (edgeState.natF 3) := by decide +kernel
theorem test_hyp_FsqrtIsTheAlgorithmsPower :
    (dom (edgeState.natF 5) ∧ edgeState.natF 5 % Config.p = 0) ∧ ¬ dom (edgeState.natF 3) := by decide +kernel
theorem test_hyp_Fp34IsTheFixedPower :
    (dom (edgeState.natF 4) ∧ edgeState.natF 4 % Config.p = 0) ∧ ¬ dom (edgeState.natF 3) := by decide +kernel
theorem test_hyp_FldcLoadsTheRom : (0 : BitVec 8).toNat ≤ 4 ∧ (4 : BitVec 8).toNat ≤ 4 ∧ 4 < (5 : BitVec 8).toNat := by
  decide +kernel
/-- E0 = (F0, F1) and E2 = (F4, F5) are in the domain, E1 = (F2, F3) is not. -/
theorem test_hyp_EmulMultiplies :
    (dom (edgeState.natRe 0) ∧ dom (edgeState.natIm 0) ∧ dom (edgeState.natRe 2) ∧ dom (edgeState.natIm 2)) ∧
    ¬ (dom (edgeState.natRe 0) ∧ dom (edgeState.natIm 0) ∧ dom (edgeState.natRe 1) ∧ dom (edgeState.natIm 1)) := by
  decide +kernel
theorem test_hyp_EsqrSquares :
    (dom (edgeState.natRe 0) ∧ dom (edgeState.natIm 0)) ∧
    ¬ (dom (edgeState.natRe 1) ∧ dom (edgeState.natIm 1)) := by decide +kernel
theorem test_hyp_EaddEsubAreCoordinatewise :
    (dom (edgeState.natRe 2) ∧ dom (edgeState.natIm 2) ∧ dom (edgeState.natRe 0) ∧ dom (edgeState.natIm 0)) ∧
    ¬ (dom (edgeState.natRe 1) ∧ dom (edgeState.natIm 1) ∧ dom (edgeState.natRe 0) ∧ dom (edgeState.natIm 0)) := by
  decide +kernel
theorem test_hyp_EinvIsNormInversion :
    (dom (edgeState.natRe 2) ∧ dom (edgeState.natIm 2) ∧ edgeState.natRe 2 % Config.p = 0 ∧
      edgeState.natIm 2 % Config.p = 0) ∧ ¬ (dom (edgeState.natRe 1) ∧ dom (edgeState.natIm 1)) := by decide +kernel
theorem test_hyp_FinvInverts : dom (edgeState.natF 1) ∧ val (edgeState.natF 1) ≠ 0 := by decide +kernel
theorem test_hyp_FsqrtOfASquareIsARoot :
    (dom ((pre [(1, mont 4)]).natF 1) ∧ ∃ w : Nat, w ^ 2 % Config.p = val ((pre [(1, mont 4)]).natF 1)) ∧
    dom (State.reset.natF 0) ∧ ∃ w : Nat, w ^ 2 % Config.p = val (State.reset.natF 0) :=
  ⟨⟨by decide +kernel, 2, by decide +kernel⟩, by decide +kernel, 0, by decide +kernel⟩
theorem test_hyp_EinvInverts :
    dom (edgeState.natRe 0) ∧ dom (edgeState.natIm 0) ∧
    ¬ (edgeState.natRe 0 % Config.p = 0 ∧ edgeState.natIm 0 % Config.p = 0) := by decide +kernel
theorem test_hyp_FmulEqualsMulwRedc : dom (edgeState.natF 1) ∧ dom (edgeState.natF 2) := by decide +kernel
theorem test_hyp_OutOfDomainOperandsDrawFreshValues :
    ((Instr.fmul 0 1 3).wf = true ∧ (∃ r ∈ guardedOperands (.fmul 0 1 3), ¬ dom (edgeState.natF r)) ∧
      writesF (.fmul 0 1 3) = [0]) ∧
    (Instr.esqr 2 1).wf = true ∧ (∃ r ∈ guardedOperands (.esqr 2 1), ¬ dom (edgeState.natF r)) ∧
      writesF (.esqr 2 1) = [reReg 2, imReg 2] := by decide +kernel
theorem test_hyp_FieldResultsAreCanonical :
    ((Instr.fpow2k 0 1 255).wf = true ∧ computesField (.fpow2k 0 1 255) = true ∧
      ∀ r ∈ guardedOperands (.fpow2k 0 1 255), dom (edgeState.natF r)) ∧
    (Instr.emul 3 0 2).wf = true ∧ computesField (.emul 3 0 2) = true ∧
      ∀ r ∈ guardedOperands (.emul 3 0 2), dom (edgeState.natF r) := by decide +kernel

/-- The reset state with D1 at the top of REDC's domain. -/
def redcState : State := pre [] [(1, Config.p * 2 ^ 768 - 1)]

theorem test_hyp_FieldDomainIsKept :
    AllInDomain redcState ∧ (∀ d a b, Instr.redc 0 1 ≠ .addl d a b) ∧
    (∀ d a, Instr.redc 0 1 = .redc d a → redcState.natD a < Config.p * 2 ^ 768) ∧
    ∃ t, exec (.redc 0 1) redcState = .next t := by
  refine ⟨?_, fun _ _ _ h => Instr.noConfusion h, fun d a h => ?_, _, rfl⟩
  · unfold AllInDomain; decide +kernel
  · cases h; decide +kernel
theorem test_hyp_CommandsWriteOnlyTheirWriteSet :
    (∃ t, exec (.fmul 0 1 2) busyState = .next t) ∧ busyState.inflight = some (.fmul 0 1 2) :=
  ⟨⟨_, rfl⟩, rfl⟩
theorem test_hyp_AliasedDestinationGivesTheSameResult : (1 : BitVec 8) ≠ 0 ∧ (255 : BitVec 8) ≠ 0 := by decide +kernel

/-- A state with this command slot, these F registers and these events to come. -/
def secretState (slot : Option Instr) (f : Vector FWord 16) (es : List HostEvent) : State :=
  { State.reset with f := f, inflight := slot, inputs := es }

/-- Every hypothesis of OperandValuesAreInvisible, for two states that differ in the F registers alone. -/
def SecretWitness (slot : Option Instr) (f g : Vector FWord 16) (es : List HostEvent) : Prop :=
  let s := secretState slot f es
  let t := secretState slot g es
  SameButOperands s t ∧
    (∀ i, s.inflight = some i → (s.inputs = [] ∨ ∃ rest, s.inputs = .unitTurn :: rest) → writesEq i = false) ∧
    (∀ e rest, s.inputs = e :: rest → readsNoOperand s.busy e) ∧ ∃ s', step s = .next s'

theorem secretState_same (slot : Option Instr) (f g : Vector FWord 16) (es : List HostEvent) :
    SameButOperands (secretState slot f es) (secretState slot g es) :=
  ⟨rfl, rfl, rfl, rfl, rfl, rfl, rfl, rfl, rfl, rfl⟩

/-- The unit's turn completes an FMUL. -/
theorem secret_fmul_completes (f g : Vector FWord 16) : SecretWitness (some (.fmul 0 1 2)) f g [] :=
  ⟨secretState_same _ f g _, fun _ h _ => by cases h; rfl, fun _ _ h => (List.cons_ne_nil _ _ h.symm).elim, _, rfl⟩

/-- A host event other than the unit's turn comes next, whatever is in flight. -/
theorem secret_event (slot : Option Instr) (f g : Vector FWord 16) (e : HostEvent) (hu : e ≠ .unitTurn)
    (he : readsNoOperand slot.isSome e) (hs : ∃ s', step (secretState slot f [e]) = .next s') :
    SecretWitness slot f g [e] := by
  refine ⟨secretState_same _ f g _, fun i _ h => ?_, fun e' rest h => ?_, hs⟩
  · rcases h with h | ⟨rest, h⟩
    · exact (List.cons_ne_nil _ _ h).elim
    · exact (hu (List.cons.inj h).1).elim
  · cases h; exact he

/-- Two states that differ in every F register, and: an FMUL completes; STATUS is read with FVEQ in flight, and
idle; an operand limb is read while busy; an operand offset is read with an illegal width; the unit is reset with EVEQ in
flight. -/
theorem test_hyp_OperandValuesAreInvisible :
    let f : Vector FWord 16 := Vector.replicate 16 5
    let g : Vector FWord 16 := Vector.replicate 16 7
    f ≠ g ∧ SecretWitness (some (.fmul 0 1 2)) f g [] ∧ SecretWitness (some (.fveq 1 2)) f g [.read .w64 0xF08] ∧
      SecretWitness none f g [.read .w64 0xF08] ∧
      SecretWitness (some (.fmul 0 1 2)) f g [.read .w64 0x060] ∧ SecretWitness none f g [.read .w32 0x060] ∧
      SecretWitness (some (.eveq 1 2)) f g [.hardReset] := by
  intro f g
  exact ⟨by decide +kernel, secret_fmul_completes f g,
    secret_event _ f g _ HostEvent.noConfusion (fun _ h => absurd h Bool.noConfusion) ⟨_, rfl⟩,
    secret_event _ f g _ HostEvent.noConfusion (fun _ _ => True.intro) ⟨_, rfl⟩,
    secret_event _ f g _ HostEvent.noConfusion (fun _ h => absurd h Bool.noConfusion) ⟨_, rfl⟩,
    secret_event _ f g _ HostEvent.noConfusion (fun h => absurd h (by decide +kernel)) ⟨_, rfl⟩,
    secret_event _ f g _ HostEvent.noConfusion True.intro ⟨_, rfl⟩⟩
theorem test_hyp_LatencyDependsOnOpcodeAlone :
    (opcodeOf (.fpow2k 0 1 9) = opcodeOf (.fpow2k 2 3 9) ∧ writesEq (.fpow2k 0 1 9) = false ∧
      ∀ d a k d' a' k', Instr.fpow2k 0 1 9 = .fpow2k d a k → Instr.fpow2k 2 3 9 = .fpow2k d' a' k' → k = k') ∧
    opcodeOf (.fmul 0 1 2) = opcodeOf (.fmul 3 4 5) ∧ writesEq (.fmul 0 1 2) = false := by
  refine ⟨⟨by decide +kernel, rfl, ?_⟩, by decide +kernel, rfl⟩
  intro d a k d' a' k' h h'
  cases h; cases h'; rfl
theorem test_hyp_OperandLimbWriteThenRead : State.reset.busy = false ∧ busyState.busy = true := by decide +kernel
theorem test_hyp_BusyAccessesToControlRegisters : busyState.busy = true := by decide +kernel
theorem test_hyp_BadAccessesAreRejected :
    Width.w8 ≠ .w64 ∧ Width.w128 ≠ .w64 ∧ (0x001 : Offset).toNat % 8 ≠ 0 ∧ (0xFFF : Offset).toNat % 8 ≠ 0 := by decide +kernel
/-- The first and the last legal offset of each reserved range; CMD, CAUSE and ID meet the alignment premise too. -/
theorem test_hyp_ReservedOffsetsReadZeroIgnoreWrites :
    (∀ o ∈ [0x600#12, 0x7F8#12], o.toNat % 8 = 0 ∧ 0x600 ≤ o.toNat ∧ o.toNat < 0x800) ∧
    (∀ o ∈ [0xB00#12, 0xEF8#12], o.toNat % 8 = 0 ∧ 0xB00 ≤ o.toNat ∧ o.toNat < 0xF00) ∧
    (∀ o ∈ [0xF30#12, 0xFF8#12], o.toNat % 8 = 0 ∧ 0xF30 ≤ o.toNat) ∧
    ∀ o ∈ [0xF00#12, 0xF10#12, 0xF28#12], o.toNat % 8 = 0 := by simp
theorem test_hyp_OperandReadsAndLegalReads : (0x000 : Offset).toNat % 8 = 0 ∧ (0xFF8 : Offset).toNat % 8 = 0 := by
  decide +kernel
theorem test_hyp_StatusFieldsAndWrite : busyState.busy = true ∧ (0xA : Limb).getLsbD 1 = true ∧
    (0xA : Limb).getLsbD 3 = true ∧ (0 : Limb).getLsbD 1 = false := by decide +kernel
theorem test_hyp_ControlRegisterWords : State.reset.busy = false ∧ (1 : Limb).getLsbD 1 = false := by decide +kernel
theorem test_hyp_HardAndSoftReset :
    ((busyState.withInputs [.hardReset]).inputs = .hardReset :: [] ∧
      ∃ t, step (busyState.withInputs [.hardReset]) = .next t) ∧
    (3 : Limb).getLsbD 1 = true ∧ (busyState.withInputs [.write .w64 0xF20 3]).inputs = .write .w64 0xF20 3 :: [] ∧
      ∃ t, step (busyState.withInputs [.write .w64 0xF20 3]) = .next t :=
  ⟨⟨rfl, _, rfl⟩, by decide +kernel, rfl, _, rfl⟩
theorem test_hyp_IrqIsEnableAndDone : (2 : Limb).getLsbD 1 = true ∧ (2 : Limb).getLsbD 0 = false ∧
    (0 : Limb).getLsbD 0 = false ∧ (0 : Limb).getLsbD 1 = false := by decide +kernel
theorem test_hyp_PseudoInstructionsMeanWhatTheySay :
    (sideCondition (.fneg 0 1) = true ∧ dom (edgeState.natF 1)) ∧
    (sideCondition (.tomont 1 1 2) = true ∧ dom (edgeState.natF 1)) ∧
    sideCondition (.frommont 2 1 2) = true ∧ dom (edgeState.natF 1) := by decide +kernel

end Sys2Proof.Machine.Tests
end

section
/-! PROOFS. Operand values stay in the operand registers (R7). Masking both register files turns "agree on everything
but the operands" into an equation; every access of the host then commutes with the mask. -/

namespace Sys2Proof.Machine

/-! ### When a command completes -/

/-- Whether a command completes is decided by its own well-formedness, in every state (R108, log 14). -/
theorem exec_next_iff_wf (i : Instr) (s : State) : (∃ t, exec i s = .next t) ↔ i.wf = true := by
  cases i with
  | fpow2k d a k => by_cases hk : k = 0#8 <;> simp [exec, execFpow2k, Instr.wf, hk]
  | fldc d c =>
    rw [Instr.wf, ← romValue_isSome]
    simp only [exec, execFldc]
    cases romValue c <;> simp
  | _ => exact ⟨fun _ => rfl, fun _ => ⟨_, rfl⟩⟩

/-! ### The mask -/

/-- The state with both operand register files forgotten. -/
def State.maskOperands (s : State) : State := { s with f := State.reset.f, d := State.reset.d }

/-- Agreeing on everything but the operands is having the same masked state. -/
theorem sameButOperands_iff {s t : State} :
    SameButOperands s t ↔ t.maskOperands = s.maskOperands := by
  simp [SameButOperands, SameShell, State.maskOperands]

@[simp] theorem State.maskOperands_maskOperands (s : State) :
    s.maskOperands.maskOperands = s.maskOperands := rfl
@[simp] theorem State.maskOperands_tick (s : State) : s.maskOperands.tick = s.tick := rfl
@[simp] theorem State.maskOperands_inflight (s : State) : s.maskOperands.inflight = s.inflight := rfl
@[simp] theorem State.maskOperands_inputs (s : State) : s.maskOperands.inputs = s.inputs := rfl
@[simp] theorem State.maskOperands_busy (s : State) : s.maskOperands.busy = s.busy := rfl

@[simp] theorem State.maskOperands_setF (s : State) (i : FReg) (v : FWord) :
    (s.setF i v).maskOperands = s.maskOperands := rfl
@[simp] theorem State.maskOperands_setD (s : State) (i : DReg) (v : DWord) :
    (s.setD i v).maskOperands = s.maskOperands := rfl
@[simp] theorem State.maskOperands_setE (s : State) (j : EPair) (re im : FWord) :
    (s.setE j re im).maskOperands = s.maskOperands := rfl

@[simp] theorem State.maskOperands_setImm (s : State) (v : Limb) :
    (s.setImm v).maskOperands = s.maskOperands.setImm v := rfl
@[simp] theorem State.maskOperands_accept (s : State) (i : Instr) :
    (s.accept i).maskOperands = s.maskOperands.accept i := rfl
@[simp] theorem State.maskOperands_finish (s : State) : s.finish.maskOperands = s.maskOperands.finish := rfl
@[simp] theorem State.maskOperands_reject (s : State) (c : Cause) :
    (s.reject c).maskOperands = s.maskOperands.reject c := rfl
@[simp] theorem State.maskOperands_writeStatus (s : State) (v : Limb) :
    (s.writeStatus v).maskOperands = s.maskOperands.writeStatus v := rfl
@[simp] theorem State.maskOperands_resetUnit (s : State) :
    s.resetUnit.maskOperands = s.maskOperands.resetUnit := rfl
@[simp] theorem State.maskOperands_advance (s : State) : s.advance.maskOperands = s.maskOperands.advance := rfl
@[simp] theorem State.maskOperands_withInputs (s : State) (es : List HostEvent) :
    (s.withInputs es).maskOperands = s.maskOperands.withInputs es := rfl
@[simp] theorem State.maskOperands_respond (s : State) (r : BusResponse) :
    (s.respond r).maskOperands = s.maskOperands.respond r := rfl

@[simp] theorem State.maskOperands_writeCtrl (s : State) (v : Limb) :
    (s.writeCtrl v).maskOperands = s.maskOperands.writeCtrl v := by
  unfold State.writeCtrl
  split <;> rfl

@[simp] theorem State.maskOperands_writeCmd (s : State) (v : Limb) :
    (s.writeCmd v).maskOperands = s.maskOperands.writeCmd v := by
  unfold State.writeCmd
  cases hb : s.busy with
  | true => simp [hb]
  | false => cases hd : decode v <;> simp [hb]

/-! ### The host's accesses and the mask -/

/-- A limb write may change the operand it goes to, and whether it is refused does not depend on operands. -/
theorem State.maskOperands_writeWindow (s : State) (o : Offset) (v : Limb) :
    (s.writeWindow o v).maskOperands = (s.maskOperands.writeWindow o v).maskOperands := by
  unfold State.writeWindow
  cases windowMap o with
  | fLimb i j | dLimb i j | imm => cases hb : s.busy <;> simp [hb]
  | cmd | status | ctrl | cause | ident | reserved => simp

theorem State.maskOperands_hostWrite (s : State) (w : Width) (o : Offset) (v : Limb) :
    (s.hostWrite w o v).maskOperands = (s.maskOperands.hostWrite w o v).maskOperands := by
  unfold State.hostWrite
  split
  · rw [maskOperands_respond, maskOperands_respond, maskOperands_writeWindow]
  · rfl

/-- A read that shows no operand returns the same data from the masked state (R73, R77). -/
theorem State.maskOperands_hostRead {s : State} {w : Width} {o : Offset}
    (hread : readsNoOperand s.busy (.read w o)) :
    (s.hostRead w o).maskOperands = (s.maskOperands.hostRead w o).maskOperands := by
  unfold State.hostRead
  split
  case isFalse => rfl
  case isTrue hlegal =>
    have hword : s.readWindow (windowMap o) = s.maskOperands.readWindow (windowMap o) := by
      have hidle := hread hlegal
      cases hr : windowMap o with
      | fLimb i j | dLimb i j =>
        have hb : s.busy = true := by simpa [hr] using hidle
        simp only [State.readWindow, State.maskOperands_busy, State.maskOperands_tick, hb, if_true]
      | cmd | status | cause | imm | ctrl | ident | reserved => rfl
    rw [hword, maskOperands_respond, maskOperands_respond, maskOperands_maskOperands]

/-! ### The unit's turn -/

/-- A command other than FVEQ and EVEQ writes operand registers alone (R37, R337). -/
theorem exec_maskOperands {i : Instr} {s t : State} (hi : writesEq i = false) (h : exec i s = .next t) :
    t.maskOperands = s.maskOperands := by
  rcases exec_cases h with ⟨d, v, -, -, -, rfl⟩ | ⟨d, v, -, -, -, rfl⟩ | ⟨d, a, v, -, rfl⟩ |
    ⟨d, re, im, -, -, -, rfl⟩ | ⟨b, -, -, heq, -⟩
  case inr.inr.inr.inr => exact absurd (hi.symm.trans heq) Bool.false_ne_true
  all_goals simp

/-- The unit's turn on two states with the same mask: both are idle, or both complete the same command. -/
theorem unitStep_noninterference {s t s' : State} (hst : t.maskOperands = s.maskOperands)
    (hi : ∀ i, s.inflight = some i → writesEq i = false) (h : unitStep s = .next s') :
    ∃ t', unitStep t = .next t' ∧ t'.maskOperands = s'.maskOperands := by
  have hslot : t.inflight = s.inflight := by simpa using congrArg State.inflight hst
  rcases unitStep_cases h with ⟨hidle, rfl⟩ | ⟨i, u, hs, hexec, rfl⟩
  · exact ⟨t, by simp [unitStep, hslot, hidle], hst⟩
  · obtain ⟨u', hexec'⟩ := (exec_next_iff_wf i t).2 ((exec_next_iff_wf i s).1 ⟨u, hexec⟩)
    refine ⟨u'.finish, by simp [unitStep, hslot, hs, hexec'], ?_⟩
    rw [State.maskOperands_finish, State.maskOperands_finish, exec_maskOperands (hi i hs) hexec,
      exec_maskOperands (hi i hs) hexec', hst]

/-! ### One event, and one step -/

/-- One event that shows no operand and completes no FVEQ or EVEQ keeps two states with the same mask so. -/
theorem eventStep_noninterference {e : HostEvent} {s t s' : State}
    (hst : t.maskOperands = s.maskOperands)
    (hi : ∀ i, s.inflight = some i → e = .unitTurn → writesEq i = false)
    (hread : readsNoOperand s.busy e) (h : eventStep e s = .next s') :
    ∃ t', eventStep e t = .next t' ∧ t'.maskOperands = s'.maskOperands := by
  cases e with
  | read w o =>
    have hbusy : t.busy = s.busy := by simpa using congrArg State.busy hst
    cases h
    exact ⟨_, rfl, by
      rw [State.maskOperands_hostRead hread, State.maskOperands_hostRead (hbusy ▸ hread), hst]⟩
  | write w o v =>
    cases h
    exact ⟨_, rfl, by rw [State.maskOperands_hostWrite s, State.maskOperands_hostWrite t, hst]⟩
  | hardReset => cases h; exact ⟨_, rfl, by simp [hst]⟩
  | unitTurn => exact unitStep_noninterference hst (fun i hs => hi i hs rfl) h

theorem step_of_inputs_nil {s : State} (h : s.inputs = []) : step s = unitStep s.advance := by
  simp [step, agentStep, h]

theorem step_of_inputs_cons {s : State} {e : HostEvent} {rest : List HostEvent} (h : s.inputs = e :: rest) :
    step s = eventStep e (s.advance.withInputs rest) := by
  simp [step, agentStep, h]

/-- Settles O48: the masked state after a step is a function of the masked state before it, by cases on the next
event. -/
theorem operandValuesAreInvisible : Obligations.OperandValuesAreInvisible := by
  intro s t s' hsame hi hread hstep
  have hst := sameButOperands_iff.1 hsame
  have hinputs : t.inputs = s.inputs := by simpa using congrArg State.inputs hst
  simp only [sameButOperands_iff]
  cases hs : s.inputs with
  | nil =>
    rw [step_of_inputs_nil hs] at hstep
    rw [step_of_inputs_nil (hinputs.trans hs)]
    exact unitStep_noninterference (s := s.advance) (by simp [hst]) (fun i h => hi i h (.inl hs)) hstep
  | cons e rest =>
    rw [step_of_inputs_cons hs] at hstep
    rw [step_of_inputs_cons (hinputs.trans hs)]
    exact eventStep_noninterference (s := s.advance.withInputs rest) (by simp [hst])
      (fun i h he => hi i h (.inr ⟨rest, he ▸ hs⟩)) (hread e rest hs) hstep

end Sys2Proof.Machine
end

section
/-! PROOFS. Results of the field commands are canonical (R6, R181, R241). -/

namespace Sys2Proof.Machine

/-- The last step of the chain is a Montgomery product (R216). -/
theorem p34_lt (x : Nat) : p34 x < Config.p := by
  rw [p34, chainRom, List.foldl_append, List.foldl_cons, List.foldl_nil]
  exact chainStep_lt _ _ _

/-- Behind a guard whose operands are in the domain a canonical value stays canonical (R15). -/
theorem State.guarded_lt_p {s : State} {rs : List FReg} (hdom : ∀ r ∈ rs, dom (s.natF r)) (slot : Nat)
    {v : Nat} (hv : v < Config.p) : (s.guarded (rs.map s.natF) slot v).toNat < Config.p := by
  rw [State.guarded_of_dom (List.forall_mem_map.2 hdom), toNat_toF_of_lt hv]
  exact hv

theorem State.natF_setF_lt_p (s : State) (d : FReg) {v : FWord} (hv : v.toNat < Config.p) :
    ∀ r ∈ [d], (s.setF d v).natF r < Config.p := by
  simpa [State.natF] using hv

theorem State.natF_setE_lt_p (s : State) (d : EPair) {re im : FWord} (hre : re.toNat < Config.p)
    (him : im.toNat < Config.p) : ∀ r ∈ [reReg d, imReg d], (s.setE d re im).natF r < Config.p := by
  simpa [State.natF] using ⟨hre, him⟩

/-- A guarded write of a canonical value to an F register (R180, R181). -/
theorem State.natF_setF_guarded_lt_p {s : State} {rs : List FReg} (hdom : ∀ r ∈ rs, dom (s.natF r))
    (d : FReg) {v : Nat} (hv : v < Config.p) :
    ∀ r ∈ [d], (s.setF d (s.guarded (rs.map s.natF) 0 v)).natF r < Config.p :=
  s.natF_setF_lt_p d (State.guarded_lt_p hdom 0 hv)

/-- A guarded write of two canonical coordinates to an E pair (R240, R241). -/
theorem State.natF_writeE_lt_p {s : State} {rs : List FReg} (hdom : ∀ r ∈ rs, dom (s.natF r))
    (d : EPair) {re im : Nat} (hre : re < Config.p) (him : im < Config.p) :
    ∀ r ∈ [reReg d, imReg d], (s.writeE (rs.map s.natF) d re im).natF r < Config.p :=
  s.natF_setE_lt_p d (State.guarded_lt_p hdom 0 hre) (State.guarded_lt_p hdom 1 him)

/-- Settles O44: each command's value is below p by the range lemma of its last operation. -/
theorem fieldResultsAreCanonical : Obligations.FieldResultsAreCanonical := by
  intro i s hwf hfield hdom
  cases i with
  | fmul d _ _ | fsqr d _ => exact ⟨_, rfl, State.natF_setF_guarded_lt_p hdom d (mmul_lt _ _)⟩
  | fpow2k d a k =>
    have hk : k ≠ 0 := by simpa [Instr.wf] using hwf
    have hpos : 0 < k.toNat := Nat.pos_of_ne_zero fun h => hk (BitVec.eq_of_toNat_eq h)
    exact ⟨_, if_neg hk, State.natF_setF_guarded_lt_p hdom d (squareTimes_lt (.inr hpos))⟩
  | fadd d _ _ => exact ⟨_, rfl, State.natF_setF_guarded_lt_p hdom d (addP_lt _ _)⟩
  | fsub d _ _ => exact ⟨_, rfl, State.natF_setF_guarded_lt_p hdom d (subP_lt _ _)⟩
  | finv d _ => exact ⟨_, rfl, State.natF_setF_guarded_lt_p hdom d (invP_lt _)⟩
  | fsqrt d _ => exact ⟨_, rfl, State.natF_setF_guarded_lt_p hdom d (sqrtP_lt _)⟩
  | fp34 d _ => exact ⟨_, rfl, State.natF_setF_guarded_lt_p hdom d (p34_lt _)⟩
  | fsetu d =>
    have hlt : s.imm.toNat * Config.radix % Config.p < Config.p := Nat.mod_lt _ p_pos
    exact ⟨_, rfl, s.natF_setF_lt_p d ((toNat_toF_of_lt hlt).trans_lt hlt)⟩
  | emul d _ _ =>
    exact ⟨_, rfl, State.natF_writeE_lt_p hdom d (karatsubaRe_lt _ _ _ _) (karatsubaIm_lt _ _ _ _)⟩
  | esqr d _ => exact ⟨_, rfl, State.natF_writeE_lt_p hdom d (redc_lt _) (redc_lt _)⟩
  | eadd d _ _ => exact ⟨_, rfl, State.natF_writeE_lt_p hdom d (addP_lt _ _) (addP_lt _ _)⟩
  | esub d _ _ => exact ⟨_, rfl, State.natF_writeE_lt_p hdom d (subP_lt _ _) (subP_lt _ _)⟩
  | einv d _ => exact ⟨_, rfl, State.natF_writeE_lt_p hdom d (mmul_lt _ _) (mmul_lt _ _)⟩
  | _ => cases hfield

end Sys2Proof.Machine
end

section
/-! PROOFS. The unit's turn runs the command in flight and finishes it (R50), and a loaded word puts its command in
flight with the unit's turn next (log 7). -/

namespace Sys2Proof.Machine

/-- The completion step of a command in flight: its rule, then parts 2 to 4 (R50). -/
theorem unitStep_of_inflight {s : State} {i : Instr} (h : s.inflight = some i) :
    unitStep s =
      match exec i s with
      | .next t => .next t.finish
      | .fault r => .fault r
      | .refused r => .refused r := by
  cases hexec : exec i s <;> simp [unitStep, h, hexec]

theorem State.withFetchWord_of_decode {n w : Nat} {i : Instr} (s : State) (h : decodeTableWord n w = some i) :
    s.withFetchWord n w = (s.accept i).withInputs (.unitTurn :: s.inputs) := by
  simp only [State.withFetchWord, State.loadWord, h]

theorem step_of_inputs_unitTurn {s : State} {rest : List HostEvent} (h : s.inputs = .unitTurn :: rest) :
    step s = unitStep (s.advance.withInputs rest) :=
  step_of_inputs_cons h

/-- Putting back the events that are already to come changes nothing (log 2). -/
theorem State.withInputs_of_inputs_eq {s : State} {es : List HostEvent} (h : s.inputs = es) :
    s.withInputs es = s := by
  subst h; rfl

/-- Settles O7: either way the step is the unit's turn, on a state with the command in flight. -/
theorem stepRunsTheLoadedCommand : Obligations.StepRunsTheLoadedCommand := by
  refine ⟨fun s w i hw => ?_, fun s i rest hi hinputs => ?_⟩
  · rw [s.withFetchWord_of_decode hw, step_of_inputs_unitTurn rfl]
    exact unitStep_of_inflight rfl
  · have hturn : step s = unitStep (s.advance.withInputs rest) := by
      rcases hinputs with ⟨hnil, rfl⟩ | hcons
      · rw [step_of_inputs_nil hnil, State.withInputs_of_inputs_eq (s := s.advance) hnil]
      · exact step_of_inputs_unitTurn hcons
    rw [hturn]
    exact unitStep_of_inflight (s := s.advance.withInputs rest) hi

end Sys2Proof.Machine
end

section
/-! PROOFS. The control registers at the host port (R40 to R60): where they stand in the window, the bits of their
words, and what a write to each does. -/

namespace Sys2Proof.Machine

/-! ### Legal accesses by the row of the window -/

/-- A legal read answers the word of the row its offset names (R71, R73). -/
theorem State.hostRead_of_windowMap {o : Offset} {r : WindowReg} (s : State)
    (hlegal : legalAccess .w64 o = true) (hrow : windowMap o = r) :
    s.hostRead .w64 o = s.respond (.readData (s.readWindow r)) := by
  rw [State.hostRead, if_pos hlegal, hrow]

/-- A legal write is acknowledged, whatever its row does with it (R73, log 16). -/
theorem State.hostWrite_of_legal {o : Offset} (s : State) (v : Limb) (hlegal : legalAccess .w64 o = true) :
    s.hostWrite .w64 o v = (s.writeWindow o v).respond .writeAck :=
  if_pos hlegal

theorem windowMap_status : windowMap 0xF08 = .status := by decide
theorem windowMap_cause : windowMap 0xF10 = .cause := by decide
theorem windowMap_imm : windowMap 0xF18 = .imm := by decide
theorem windowMap_ctrl : windowMap 0xF20 = .ctrl := by decide
theorem windowMap_ident : windowMap 0xF28 = .ident := by decide

/-! ### Reads -/

theorem State.hostRead_status (s : State) :
    s.hostRead .w64 0xF08 = s.respond (.readData s.statusWord) :=
  s.hostRead_of_windowMap (by decide) windowMap_status

theorem State.hostRead_cause (s : State) :
    s.hostRead .w64 0xF10 = s.respond (.readData s.cause.word) :=
  s.hostRead_of_windowMap (by decide) windowMap_cause

theorem State.hostRead_imm (s : State) : s.hostRead .w64 0xF18 = s.respond (.readData s.imm) :=
  s.hostRead_of_windowMap (by decide) windowMap_imm

theorem State.hostRead_ctrl (s : State) :
    s.hostRead .w64 0xF20 = s.respond (.readData s.ctrlWord) :=
  s.hostRead_of_windowMap (by decide) windowMap_ctrl

theorem State.hostRead_ident (s : State) :
    s.hostRead .w64 0xF28 = s.respond (.readData Config.idValue) :=
  s.hostRead_of_windowMap (by decide) windowMap_ident

/-! ### Writes -/

theorem State.hostWrite_status (s : State) (v : Limb) :
    s.hostWrite .w64 0xF08 v = (s.writeStatus v).respond .writeAck := by
  rw [s.hostWrite_of_legal v (by decide), State.writeWindow, windowMap_status]

theorem State.hostWrite_imm_of_idle {s : State} (v : Limb) (hidle : s.busy = false) :
    s.hostWrite .w64 0xF18 v = (s.setImm v).respond .writeAck := by
  rw [s.hostWrite_of_legal v (by decide), State.writeWindow, windowMap_imm]
  simp [hidle]

theorem State.hostWrite_ctrl (s : State) (v : Limb) :
    s.hostWrite .w64 0xF20 v = (s.writeCtrl v).respond .writeAck := by
  rw [s.hostWrite_of_legal v (by decide), State.writeWindow, windowMap_ctrl]

/-- A write-one-to-clear bit, as STATUS.DONE and STATUS.ERR are (R42). -/
theorem and_not_eq_ite (x clear : Bool) : (x && !clear) = if clear = true then false else x := by
  cases clear
  · exact Bool.and_true x
  · exact Bool.and_false x

/-- A write to CTRL without SRST is a write to IE (R48). -/
theorem State.writeCtrl_of_not_srst (s : State) {v : Limb} (h : v.getLsbD 1 = false) :
    s.writeCtrl v = { s with ie := v.getLsbD 0 } := by
  rw [State.writeCtrl, h, if_neg Bool.false_ne_true]

/-! ### The bits of the words -/

/-- STATUS bit by bit: BUSY, DONE, EQ, ERR, and 0 from bit 4 on (R42). -/
theorem State.getLsbD_statusWord (s : State) (k : Nat) : s.statusWord.getLsbD k =
    (k == 0 && s.busy || k == 1 && s.done || k == 2 && s.eq || k == 3 && s.err) := by
  simp only [State.statusWord, BitVec.getLsbD_append, BitVec.getLsbD_ofBool]
  match k with
  | 0 | 1 | 2 | 3 => simp
  | k + 4 => simp

/-- CTRL bit by bit: IE, and 0 from bit 1 on, SRST among them (R48). -/
theorem State.getLsbD_ctrlWord (s : State) (k : Nat) : s.ctrlWord.getLsbD k = (k == 0 && s.ie) := by
  cases k <;> simp [State.ctrlWord]

/-- CAUSE.CODE is bits 7:0 (R44). -/
theorem Cause.word_code (c : Cause) : c.word.extractLsb' 0 8 = c.code.number :=
  BitVec.extractLsb'_append_eq_right

/-- Bits 15:8 of CAUSE read 0 (R44). -/
theorem Cause.word_reserved_low (c : Cause) : c.word.extractLsb' 8 8 = 0 := by
  rw [Cause.word, BitVec.extractLsb'_append_eq_of_le (by decide)]
  exact BitVec.extractLsb'_append_eq_right

/-- CAUSE.OFFSET is bits 27:16 (R44). -/
theorem Cause.word_offset (c : Cause) : c.word.extractLsb' 16 12 = c.offset := by
  rw [Cause.word, BitVec.extractLsb'_append_eq_of_le (by decide),
    BitVec.extractLsb'_append_eq_of_le (by decide)]
  exact BitVec.extractLsb'_append_eq_right

/-- Bits 31:28 of CAUSE read 0 (R44). -/
theorem Cause.word_reserved_high (c : Cause) : c.word.extractLsb' 28 4 = 0 := by
  rw [Cause.word, BitVec.extractLsb'_append_eq_of_le (by decide),
    BitVec.extractLsb'_append_eq_of_le (by decide), BitVec.extractLsb'_append_eq_of_le (by decide)]
  exact BitVec.extractLsb'_append_eq_right

/-- CAUSE.CMDWORD is bits 63:32 (R44). -/
theorem Cause.word_cmdWord (c : Cause) : c.word.extractLsb' 32 32 = c.cmdWord := by
  rw [Cause.word, BitVec.extractLsb'_append_eq_of_le (by decide),
    BitVec.extractLsb'_append_eq_of_le (by decide), BitVec.extractLsb'_append_eq_of_le (by decide)]
  exact BitVec.extractLsb'_append_eq_left

/-! ### BUSY, DONE and ERR (R42, R50, R286) -/

theorem State.busy_iff (s : State) : s.busy = true ↔ s.inflight ≠ none := Option.isSome_iff_ne_none

@[simp] theorem State.busy_accept (s : State) (i : Instr) : (s.accept i).busy = true := rfl
@[simp] theorem State.busy_finish (s : State) : s.finish.busy = false := rfl

/-- A refused command word leaves DONE set, whichever check refused it (R286). -/
theorem State.done_reject_ofCommand (s : State) (e : DecodeError) (cw : CmdWord) :
    (s.reject (Cause.ofCommand e cw)).done = true := by
  rw [State.reject_done]
  cases e <;> exact Bool.or_true _

/-! ### The statements -/

/-- Settles O57: each register by its read, its write and the fields of its word. -/
theorem controlRegisterWords : Obligations.ControlRegisterWords := by
  intro s v
  refine ⟨⟨s.cause.word, s.hostRead_cause, ?_, s.cause.word_reserved_low, s.cause.word_offset,
      s.cause.word_reserved_high, s.cause.word_cmdWord⟩,
    State.hostWrite_imm_of_idle v, s.hostRead_imm, ⟨s.ctrlWord, s.hostRead_ctrl, s.getLsbD_ctrlWord⟩,
    s.hostRead_ident, fun hsrst => ?_⟩
  · rw [s.cause.word_code]
    cases s.cause.code <;> rfl
  · rw [s.hostWrite_ctrl, s.writeCtrl_of_not_srst hsrst]
    rfl

/-- Settles O56: the STATUS word bit by bit, and the write as write-one-to-clear of DONE and ERR. -/
theorem statusFieldsAndWrite : Obligations.StatusFieldsAndWrite := by
  intro s v
  refine ⟨s.hostRead_status, s.getLsbD_statusWord, fun i => ⟨s.busy_accept i, s.accept_done i⟩, s.busy_finish,
    s.finish_done, s.reject_err, s.done_reject_ofCommand, s.busy_iff, rfl, ?_⟩
  rw [s.hostWrite_status, State.writeStatus, and_not_eq_ite, and_not_eq_ite]
  rfl

end Sys2Proof.Machine
end

section
/-! PROOFS. The host's accesses to the register window (20_memory.md): which are bad, which are refused while BUSY = 1,
which are ignored, and what the operand limbs show. -/

namespace Sys2Proof.Machine

/-! ### One event of the outside world (R30, R80) -/

/-- The unit's turn with no command in flight (log 15). -/
theorem unitStep_of_idle {s : State} (h : s.inflight = none) : unitStep s = .next s := by
  rw [unitStep, h]

/-- Settles O8: the step is the next event's own step, and an idle unit's turn is no step at all. -/
theorem stepTakesOneEvent : Obligations.StepTakesOneEvent := by
  intro s rest
  refine ⟨fun w o => step_of_inputs_cons, fun w o v => step_of_inputs_cons, step_of_inputs_cons,
    fun hidle hinputs => ?_, fun hidle hinputs => ?_⟩
  · rw [step_of_inputs_unitTurn hinputs]
    exact unitStep_of_idle (s := s.advance.withInputs rest) hidle
  · rw [step_of_inputs_nil hinputs]
    exact unitStep_of_idle (s := s.advance) hidle

/-! ### Bad accesses (R73) -/

theorem legalAccess_of_aligned {o : Offset} (h : o.toNat % 8 = 0) : legalAccess .w64 o = true := by
  rw [legalAccess, h]; rfl

theorem legalAccess_eq_false {w : Width} {o : Offset} (h : w ≠ .w64 ∨ o.toNat % 8 ≠ 0) :
    legalAccess w o = false := by
  rw [legalAccess, Bool.and_eq_false_iff, beq_eq_false_iff_ne, beq_eq_false_iff_ne]
  exact h

/-- A rejection that is not the decoder's touches ERR and CAUSE alone; DONE stays (R286). -/
theorem State.reject_ofAccess (s : State) {c : CauseCode} (hc : c.isDecode = false) (o : Offset) :
    s.reject (Cause.ofAccess c o) =
      { s with err := true, cause := if s.err = true then s.cause else Cause.ofAccess c o } := by
  rw [State.reject, Cause.ofAccess, hc, Bool.or_false]

/-- Settles O52: the access is not legal, so both ports reject it with BAD_ACCESS, before the row is looked up. -/
theorem badAccessesAreRejected : Obligations.BadAccessesAreRejected := by
  intro s w o v hbad
  have hillegal := Bool.eq_false_iff.1 (legalAccess_eq_false hbad)
  rw [State.hostRead, if_neg hillegal, State.hostWrite, if_neg hillegal, s.reject_ofAccess rfl o]
  exact ⟨rfl, rfl⟩

/-! ### Writes refused while a command is in flight (R76, R78) -/

theorem windowMap_cmd : windowMap 0xF00 = .cmd := by decide

/-- The rows that take a write only while BUSY = 0, CMD apart: the operand limbs and IMM (R76, R78). -/
def WindowReg.writtenOnlyIdle : WindowReg → Bool
  | .fLimb _ _ | .dLimb _ _ | .imm => true
  | .cmd | .status | .cause | .ctrl | .ident | .reserved => false

theorem State.hostWrite_of_busy {s : State} {o : Offset} (v : Limb) (hbusy : s.busy = true)
    (hlegal : legalAccess .w64 o = true) (hrow : (windowMap o).writtenOnlyIdle = true) :
    s.hostWrite .w64 o v = (s.reject (Cause.ofAccess .busyWrite o)).respond .writeAck := by
  rw [s.hostWrite_of_legal v hlegal, State.writeWindow]
  cases hr : windowMap o with
  | fLimb i j | dLimb i j | imm => simp only [if_pos hbusy]
  | cmd | status | cause | ctrl | ident | reserved =>
    rw [hr] at hrow
    exact absurd hrow Bool.false_ne_true

theorem State.hostWrite_cmd_of_busy {s : State} (v : Limb) (hbusy : s.busy = true) :
    s.hostWrite .w64 0xF00 v = (s.reject (Cause.ofAccess .busyWrite 0xF00)).respond .writeAck := by
  rw [s.hostWrite_of_legal v (by decide), State.writeWindow, windowMap_cmd]
  simp only [State.writeCmd, if_pos hbusy]

/-- Settles O51: CMD and IMM refuse with BUSY_WRITE, which is no decode cause and so keeps DONE; the other accesses
do not ask for BUSY. -/
theorem busyAccessesToControlRegisters : Obligations.BusyAccessesToControlRegisters := by
  intro s v hbusy
  have hcmd := State.hostWrite_cmd_of_busy v hbusy
  have himm : s.hostWrite .w64 0xF18 v = (s.reject (Cause.ofAccess .busyWrite 0xF18)).respond .writeAck :=
    State.hostWrite_of_busy v hbusy (by decide) (by rw [windowMap_imm]; rfl)
  refine ⟨hcmd, himm, ?_, ?_, s.hostWrite_status v, s.hostWrite_ctrl v, s.hostRead_status, s.hostRead_cause,
    s.hostRead_imm, s.hostRead_ctrl, s.hostRead_ident⟩
  · rw [hcmd, s.reject_ofAccess rfl, State.respond_done]
  · rw [hcmd, State.respond_inflight, State.reject_inflight]

/-! ### Rows that ignore a write or read 0 (R74) -/

/-- A write to a row without a writable register is acknowledged and ignored, at any time (R74). -/
theorem State.hostWrite_ignored {o : Offset} (s : State) (v : Limb) (hlegal : legalAccess .w64 o = true)
    (hrow : windowMap o = .reserved ∨ windowMap o = .cause ∨ windowMap o = .ident) :
    s.hostWrite .w64 o v = s.respond .writeAck := by
  rw [s.hostWrite_of_legal v hlegal, State.writeWindow]
  rcases hrow with h | h | h <;> rw [h]

/-- A row without a readable register reads 0 (R74). -/
theorem State.hostRead_zero {o : Offset} (s : State) (hlegal : legalAccess .w64 o = true)
    (hrow : windowMap o = .reserved ∨ windowMap o = .cmd) :
    s.hostRead .w64 o = s.respond (.readData 0) := by
  rcases hrow with h | h <;> exact s.hostRead_of_windowMap hlegal h

/-- Settles O53: the three ranges are the reserved rows, and CMD, CAUSE and ID are the named ones. -/
theorem reservedOffsetsReadZeroIgnoreWrites : Obligations.ReservedOffsetsReadZeroIgnoreWrites := by
  intro s o v haligned
  have hlegal := legalAccess_of_aligned haligned
  refine ⟨fun hread => s.hostRead_zero hlegal ?_, fun hwrite => s.hostWrite_ignored v hlegal ?_⟩
  · rcases hread with h | h | h | rfl
    case inr.inr.inr => exact .inr windowMap_cmd
    all_goals exact .inl (windowMap_reserved (by omega))
  · rcases hwrite with h | h | h | rfl | rfl
    case inr.inr.inr.inl => exact .inr (.inl windowMap_cause)
    case inr.inr.inr.inr => exact .inr (.inr windowMap_ident)
    all_goals exact .inl (windowMap_reserved (by omega))

/-! ### Operand limbs (R76, R77, R79) -/

/-- A read of limb j of F[i]: the limb while BUSY = 0, a free value while BUSY = 1 (R77, log 4). -/
theorem State.hostRead_fLimb (s : State) (i : FReg) (j : Fin 12) :
    s.hostRead .w64 (fLimbOffset i j.val) =
      s.respond (.readData (if s.busy = true then Config.anyLimb s.tick else limbOf (s.getF i) j.val)) :=
  s.hostRead_of_windowMap (legalAccess_fLimbOffset i j) (windowMap_fLimbOffset i j)

/-- A read of limb j of D[i]: the limb while BUSY = 0, a free value while BUSY = 1 (R77, log 4). -/
theorem State.hostRead_dLimb (s : State) (i : DReg) (j : Fin 24) :
    s.hostRead .w64 (dLimbOffset i j.val) =
      s.respond (.readData (if s.busy = true then Config.anyLimb s.tick else limbOf (s.getD i) j.val)) :=
  s.hostRead_of_windowMap (legalAccess_dLimbOffset i j) (windowMap_dLimbOffset i j)

/-- Settles O54: a legal read only adds its answer, and the answer is the word of its row. -/
theorem operandReadsAndLegalReads : Obligations.OperandReadsAndLegalReads := fun s =>
  ⟨fun _ haligned => ⟨_, s.hostRead_of_windowMap (legalAccess_of_aligned haligned) rfl⟩,
    s.hostRead_fLimb, s.hostRead_dLimb⟩

theorem State.hostWrite_fLimb_of_idle {s : State} (i : FReg) (j : Fin 12) (v : Limb) (hidle : s.busy = false) :
    s.hostWrite .w64 (fLimbOffset i j.val) v =
      (s.setF i (setLimb (s.getF i) j.val v)).respond .writeAck := by
  rw [s.hostWrite_of_legal v (legalAccess_fLimbOffset i j), State.writeWindow, windowMap_fLimbOffset]
  simp [hidle]

theorem State.hostWrite_dLimb_of_idle {s : State} (i : DReg) (j : Fin 24) (v : Limb) (hidle : s.busy = false) :
    s.hostWrite .w64 (dLimbOffset i j.val) v =
      (s.setD i (setLimb (s.getD i) j.val v)).respond .writeAck := by
  rw [s.hostWrite_of_legal v (legalAccess_dLimbOffset i j), State.writeWindow, windowMap_dLimbOffset]
  simp [hidle]

@[simp] theorem State.busy_setF (s : State) (i : FReg) (x : FWord) : (s.setF i x).busy = s.busy := rfl
@[simp] theorem State.busy_setD (s : State) (i : DReg) (x : DWord) : (s.setD i x).busy = s.busy := rfl
@[simp] theorem State.busy_respond (s : State) (r : BusResponse) : (s.respond r).busy = s.busy := rfl
@[simp] theorem State.getF_respond (s : State) (r : BusResponse) (i : FReg) : (s.respond r).getF i = s.getF i := rfl
@[simp] theorem State.getD_respond (s : State) (r : BusResponse) (i : DReg) : (s.respond r).getD i = s.getD i := rfl

/-- A limb write is a replacement of that limb alone, in a register of m limbs (R76). -/
theorem limbOf_setLimb {n m : Nat} (x : BitVec n) (hn : 64 * m ≤ n) (j k : Fin m) (v : Limb) :
    limbOf (setLimb x j.val v) k.val = if k = j then v else limbOf x k.val := by
  split
  case isTrue h => subst h; exact limbOf_setLimb_self x v (by omega)
  case isFalse h => exact limbOf_setLimb_ne x v (Fin.val_ne_of_ne h)

/-- Settles O50: the idle write is `setLimb`, whose limbs are known, and the read after it shows the limb written;
the busy write is refused by its row. -/
theorem operandLimbWriteThenRead : Obligations.OperandLimbWriteThenRead := by
  intro s v
  refine ⟨fun i j => ⟨fun hidle => ⟨_, State.hostWrite_fLimb_of_idle i j v hidle,
      fun k => limbOf_setLimb _ (by decide) j k v, ?_⟩, fun hbusy => ?_⟩,
    fun i j => ⟨fun hidle => ⟨_, State.hostWrite_dLimb_of_idle i j v hidle,
      fun k => limbOf_setLimb _ (by decide) j k v, ?_⟩, fun hbusy => ?_⟩⟩
  · rw [State.hostRead_fLimb, State.busy_respond, State.busy_setF, hidle, State.getF_respond, State.getF_setF_self,
      limbOf_setLimb_self _ v (by omega), if_neg Bool.false_ne_true]
  · exact State.hostWrite_of_busy v hbusy (legalAccess_fLimbOffset i j)
      (by rw [windowMap_fLimbOffset]; rfl)
  · rw [State.hostRead_dLimb, State.busy_respond, State.busy_setD, hidle, State.getD_respond, State.getD_setD_self,
      limbOf_setLimb_self _ v (by omega), if_neg Bool.false_ne_true]
  · exact State.hostWrite_of_busy v hbusy (legalAccess_dLimbOffset i j)
      (by rw [windowMap_dLimbOffset]; rfl)

/-! ### Bytes (R71, R72) -/

/-- The word of limb j of F[i] holds every byte offset of that word (R71). -/
theorem windowMap_eq_fLimb {o : Offset} {i : FReg} {j : Fin 12} (h : o.toNat / 8 = 12 * i.val + j.val) :
    windowMap o = .fLimb i j := by
  rw [windowMap, dif_pos (by omega), WindowReg.fLimb.injEq, Fin.ext_iff, Fin.ext_iff]
  constructor <;> dsimp only <;> omega

/-- The word of limb j of D[i] holds every byte offset of that word (R71). -/
theorem windowMap_eq_dLimb {o : Offset} {i : DReg} {j : Fin 24} (h : o.toNat / 8 = 0x800 / 8 + 24 * i.val + j.val) :
    windowMap o = .dLimb i j := by
  rw [windowMap, dif_neg (by omega), if_neg (by omega), dif_pos (by omega), WindowReg.dLimb.injEq, Fin.ext_iff,
    Fin.ext_iff]
  constructor <;> dsimp only <;> omega

/-- Settles O55: byte k stands in limb k / 8, at byte k mod 8 of it. -/
theorem windowBytesAreLittleEndian : Obligations.WindowBytesAreLittleEndian := by
  intro s
  refine ⟨fun i k => ?_, fun i k => ?_⟩
  · have hoff : (BitVec.ofNat 12 (0x60 * i.val + k.val)).toNat = 0x60 * i.val + k.val := by
      rw [BitVec.toNat_ofNat]; omega
    have hrow := windowMap_eq_fLimb (i := i) (j := ⟨k.val / 8, by omega⟩) (by rw [hoff]; dsimp only; omega)
    rw [State.windowByte, hrow, hoff, show (0x60 * i.val + k.val) % 8 = k.val % 8 by omega]
    exact extractLsb'_limbOf (s.getF i) k.val
  · have hoff : (BitVec.ofNat 12 (0x800 + 0xC0 * i.val + k.val)).toNat = 0x800 + 0xC0 * i.val + k.val := by
      rw [BitVec.toNat_ofNat]; omega
    have hrow := windowMap_eq_dLimb (i := i) (j := ⟨k.val / 8, by omega⟩) (by rw [hoff]; dsimp only; omega)
    rw [State.windowByte, hrow, hoff, show (0x800 + 0xC0 * i.val + k.val) % 8 = k.val % 8 by omega]
    exact extractLsb'_limbOf (s.getD i) k.val

end Sys2Proof.Machine
end

section
/-! PROOFS. The decoder and the encoder are inverse to each other (R100 to R108, R120): a word that meets its row's
fixed bits is the encoding of the command its fields name, and the decoder's four answers follow. -/

namespace Sys2Proof

/-! ### The parts of a CMD write (R100, R101) -/

theorem bitVec_append_inj {m n : Nat} {x x' : BitVec m} {y y' : BitVec n} :
    x ++ y = x' ++ y' ↔ x = x' ∧ y = y' := by
  refine ⟨fun h => ⟨?_, ?_⟩, fun ⟨hx, hy⟩ => by rw [hx, hy]⟩
  · simpa only [BitVec.extractLsb'_append_eq_left] using congrArg (BitVec.extractLsb' n m) h
  · simpa only [BitVec.extractLsb'_append_eq_right] using congrArg (BitVec.extractLsb' 0 n) h

/-- A CMD write is a command word with a zero high half exactly when its halves are that word and 0 (R100). -/
theorem eq_setWidth_iff (v : Limb) (w : CmdWord) :
    v = w.setWidth 64 ↔ v.extractLsb' 32 32 = 0 ∧ v.extractLsb' 0 32 = w := by
  have hv : v.extractLsb' 32 32 ++ v.extractLsb' 0 32 = v := BitVec.extractLsb'_append_extractLsb'
  have hw : w.setWidth 64 = (0 : BitVec 32) ++ w := BitVec.setWidth_eq_append (by decide)
  rw [hw, ← bitVec_append_inj, hv]

theorem extractLsb'_setWidth_high (w : CmdWord) : (w.setWidth 64).extractLsb' 32 32 = 0 :=
  ((eq_setWidth_iff _ w).1 rfl).1

theorem extractLsb'_setWidth_low (w : CmdWord) : (w.setWidth 64).extractLsb' 0 32 = w :=
  ((eq_setWidth_iff _ w).1 rfl).2

/-- OP of the command word of a CMD write (R101). -/
theorem fieldOp_low (v : Limb) : fieldOp (v.extractLsb' 0 32) = v.extractLsb' 26 6 := by
  simp [fieldOp]

/-- imm8 of the command word of a CMD write (R103). -/
theorem fieldImm_low (v : Limb) : fieldImm (v.extractLsb' 0 32) = v.extractLsb' 0 8 := by
  simp [fieldImm]

/-- The OP values without a row (R106). -/
theorem rowOf_eq_none_iff (op : BitVec 6) : rowOf op.toNat = none ↔
    op.toNat ∈ [0x00, 0x07, 0x14, 0x15, 0x16, 0x17] ∨ 0x1E ≤ op.toNat := by
  rw [← Option.isNone_iff_eq_none]
  revert op
  decide

/-! ### A word that meets its row is an encoding (R102, R105, R107) -/

theorem ofFreg_fregOf_of_mask (x : BitVec 4) (_ : x &&& 0#4 = 0#4) : ofFreg (fregOf x) = x := ofFreg_fregOf x

theorem zero_eq_of_mask_full {n : Nat} (x : BitVec n) (h : x &&& BitVec.allOnes n = 0) : 0 = x := by
  rw [← h, BitVec.and_allOnes]

/-- A word whose row fixes OP and the reserved bits is assembled from any operand fields that the row's mask forces to
be the word's own. -/
theorem assembleFields_eq_word {w : CmdWord} {op : BitVec 6} {d a b m2 m3 m4 : BitVec 4} {imm m6 : BitVec 8}
    (hd : fieldD w &&& m2 = 0#4 → d = fieldD w) (ha : fieldA w &&& m3 = 0#4 → a = fieldA w)
    (hb : fieldB w &&& m4 = 0#4 → b = fieldB w) (himm : fieldImm w &&& m6 = 0#8 → imm = fieldImm w)
    (hw : w &&& (BitVec.allOnes 6 ++ m2 ++ m3 ++ m4 ++ BitVec.allOnes 6 ++ m6) = assembleFields op 0 0 0 0) :
    assembleFields op d a b imm = w := by
  have hfields : (fieldOp w &&& BitVec.allOnes 6) ++ (fieldD w &&& m2) ++ (fieldA w &&& m3) ++ (fieldB w &&& m4) ++
      (w.extractLsb' 8 6 &&& BitVec.allOnes 6) ++ (fieldImm w &&& m6) = op ++ 0#4 ++ 0#4 ++ 0#4 ++ 0#6 ++ 0#8 := by
    rw [← BitVec.and_append, ← BitVec.and_append, ← BitVec.and_append, ← BitVec.and_append, ← BitVec.and_append,
      ← word_eq_fields w]
    exact hw
  simp only [bitVec_append_inj, BitVec.and_allOnes] at hfields
  obtain ⟨⟨⟨⟨⟨hop, hd0⟩, ha0⟩, hb0⟩, hreserved⟩, himm0⟩ := hfields
  rw [hd hd0, ha ha0, hb hb0, himm himm0, assembleFields, ← hop, ← hreserved]
  exact (word_eq_fields w).symm

/-- The converse of `Laws.Encoding`: a word that meets its row's fixed bits is the encoding of the command that the
row builds from it. -/
theorem encode_build {w : CmdWord} {row : Row} (hrow : rowOf (fieldOp w).toNat = some row)
    (hw : w &&& row.mask = row.bits) : encode (row.build w) = w := by
  have hF := ofFreg_fregOf_of_mask
  have hD := ofDreg_dregOf
  have hE := ofEpair_epairOf
  have hnone := @zero_eq_of_mask_full 4
  have hnoImm := @zero_eq_of_mask_full 8
  unfold rowOf at hrow
  split at hrow <;> cases hrow
  -- MULW
  case h_1 => exact assembleFields_eq_word (hD _) (hF _) (hF _) (hnoImm _) hw
  -- REDC
  case h_2 => exact assembleFields_eq_word (hF _) (hD _) (hnone _) (hnoImm _) hw
  -- ADDL, FMUL, FADD, FSUB
  case h_3 | h_7 | h_10 | h_11 => exact assembleFields_eq_word (hF _) (hF _) (hF _) (hnoImm _) hw
  -- DADDL, DSUBL
  case h_4 | h_5 => exact assembleFields_eq_word (hD _) (hD _) (hD _) (hnoImm _) hw
  -- SRED, FSETU
  case h_6 | h_15 => exact assembleFields_eq_word (hF _) (hnone _) (hnone _) (hnoImm _) hw
  -- FSQR, FINV, FSQRT, FP34, FMOV
  case h_8 | h_12 | h_13 | h_14 | h_17 =>
    exact assembleFields_eq_word (hF _) (hF _) (hnone _) (hnoImm _) hw
  -- FPOW2K
  case h_9 => exact assembleFields_eq_word (m6 := 0) (hF _) (hF _) (hnone _) (fun _ => rfl) hw
  -- FVEQ
  case h_16 => exact assembleFields_eq_word (hnone _) (hF _) (hF _) (hnoImm _) hw
  -- FLDC
  case h_18 => exact assembleFields_eq_word (m6 := 0) (hF _) (hnone _) (hnone _) (fun _ => rfl) hw
  -- EMUL, EADD, ESUB
  case h_19 | h_21 | h_22 => exact assembleFields_eq_word (hE _) (hE _) (hE _) (hnoImm _) hw
  -- ESQR, EINV
  case h_20 | h_23 => exact assembleFields_eq_word (hE _) (hE _) (hnone _) (hnoImm _) hw
  -- EVEQ
  case h_24 => exact assembleFields_eq_word (hnone _) (hE _) (hE _) (hnoImm _) hw

/-! ### The decoder's answers (R106 to R108, R120) -/

/-- The command's own word selects its own row: the lemmas of `Laws.Encoding`, one per command. -/
theorem encode_row (i : Instr) : Laws.Encoding.Statement i :=
  match i with
  | .mulw d a b => Laws.Encoding.mulw d a b
  | .redc d a => Laws.Encoding.redc d a
  | .addl d a b => Laws.Encoding.addl d a b
  | .daddl d a b => Laws.Encoding.daddl d a b
  | .dsubl d a b => Laws.Encoding.dsubl d a b
  | .sred d => Laws.Encoding.sred d
  | .fmul d a b => Laws.Encoding.fmul d a b
  | .fsqr d a => Laws.Encoding.fsqr d a
  | .fpow2k d a k => Laws.Encoding.fpow2k d a k
  | .fadd d a b => Laws.Encoding.fadd d a b
  | .fsub d a b => Laws.Encoding.fsub d a b
  | .finv d a => Laws.Encoding.finv d a
  | .fsqrt d a => Laws.Encoding.fsqrt d a
  | .fp34 d a => Laws.Encoding.fp34 d a
  | .fsetu d => Laws.Encoding.fsetu d
  | .fveq a b => Laws.Encoding.fveq a b
  | .fmov d a => Laws.Encoding.fmov d a
  | .fldc d c => Laws.Encoding.fldc d c
  | .emul d a b => Laws.Encoding.emul d a b
  | .esqr d a => Laws.Encoding.esqr d a
  | .eadd d a b => Laws.Encoding.eadd d a b
  | .esub d a b => Laws.Encoding.esub d a b
  | .einv d a => Laws.Encoding.einv d a
  | .eveq a b => Laws.Encoding.eveq a b

/-- The two reserved-field checks of R107 together say that the write encodes no command. -/
theorem reservedField_iff_not_encoding {v : Limb} {row : Row}
    (hrow : rowOf (v.extractLsb' 26 6).toNat = some row) :
    (v.extractLsb' 32 32 ≠ 0 ∨ v.extractLsb' 0 32 &&& row.mask ≠ row.bits) ↔
      ∀ i : Instr, v ≠ (encode i).setWidth 64 := by
  rw [← fieldOp_low] at hrow
  refine ⟨fun hbad i hv => ?_, fun hnone => ?_⟩
  · obtain ⟨hhigh, hlow⟩ := (eq_setWidth_iff v _).1 hv
    obtain ⟨row', hrow', hmask, -⟩ := encode_row i
    rw [hlow, hrow', Option.some_inj] at hrow
    subst hrow
    rw [hlow] at hbad
    exact hbad.elim (· hhigh) (· hmask)
  · by_contra hgood
    push Not at hgood
    obtain ⟨hhigh, hmask⟩ := hgood
    exact hnone _ ((eq_setWidth_iff v _).2 ⟨hhigh, (encode_build hrow hmask).symm⟩)

theorem decode_of_rowOf_none {v : Limb} (h : rowOf (v.extractLsb' 26 6).toNat = none) :
    decode v = .error .illegalOpcode := by
  simp only [decode, fieldOp_low, h]

theorem decode_of_reservedField {v : Limb} {row : Row} (hrow : rowOf (v.extractLsb' 26 6).toNat = some row)
    (hbad : v.extractLsb' 32 32 ≠ 0 ∨ v.extractLsb' 0 32 &&& row.mask ≠ row.bits) :
    decode v = .error .reservedField := by
  simp only [decode, fieldOp_low, hrow]
  exact if_pos hbad

/-- The decoder gives an encoded command back, or refuses it for its operands (R108). -/
theorem decode_encode (i : Instr) :
    decode ((encode i).setWidth 64) = if i.wf = true then .ok i else .error .badOperand := by
  obtain ⟨row, hrow, hmask, hbuild⟩ := encode_row i
  simp [decode, extractLsb'_setWidth_high, extractLsb'_setWidth_low, hrow, hmask, hbuild]

/-- The four things a CMD write can be, in the order of the decoder's checks (R120). -/
theorem decode_cases (v : Limb) :
    (rowOf (v.extractLsb' 26 6).toNat = none ∧ decode v = .error .illegalOpcode) ∨
    ((∀ i, v ≠ (encode i).setWidth 64) ∧ decode v = .error .reservedField) ∨
    (∃ i, i.wf = false ∧ v = (encode i).setWidth 64 ∧ decode v = .error .badOperand) ∨
    (∃ i, i.wf = true ∧ v = (encode i).setWidth 64 ∧ decode v = .ok i) := by
  cases hrow : rowOf (v.extractLsb' 26 6).toNat with
  | none => exact .inl ⟨rfl, decode_of_rowOf_none hrow⟩
  | some row =>
    by_cases hnone : ∀ i, v ≠ (encode i).setWidth 64
    · exact .inr (.inl ⟨hnone, decode_of_reservedField hrow ((reservedField_iff_not_encoding hrow).2 hnone)⟩)
    · push Not at hnone
      obtain ⟨i, rfl⟩ := hnone
      rw [decode_encode]
      cases hwf : i.wf with
      | false => exact .inr (.inr (.inl ⟨i, hwf, rfl, rfl⟩))
      | true => exact .inr (.inr (.inr ⟨i, hwf, rfl, rfl⟩))

/-- Settles O1: the command's own row is selected, matched and gives the command back. -/
theorem decodeInvertsEncode : Obligations.DecodeInvertsEncode := by
  intro i hwf
  rw [decode_encode, if_pos hwf]

/-- Settles O2: of the four answers only the last accepts, and it is given to an encoding alone. -/
theorem acceptedWriteIsAnEncoding : Obligations.AcceptedWriteIsAnEncoding := by
  intro v i hdec
  rcases decode_cases v with ⟨-, hd⟩ | ⟨-, hd⟩ | ⟨j, -, -, hd⟩ | ⟨j, hwf, hv, hd⟩ <;> cases hd.symm.trans hdec
  exact ⟨hwf, hv⟩

/-- Settles O6: each word is a closed computation of the decoder. -/
theorem specExampleWordsDecode : Obligations.SpecExampleWordsDecode := by
  unfold Obligations.SpecExampleWordsDecode
  decide

end Sys2Proof
end

section
/-! PROOFS. The decoder's refusals, and what a write to CMD does with each answer (R106 to R108, R120). -/

namespace Sys2Proof.Machine

/-! ### The operand check (R108) -/

/-- The commands that are not well formed are FPOW2K with k = 0 and FLDC with c > 4 (R108). -/
theorem wf_eq_false_iff (i : Instr) :
    i.wf = false ↔ (∃ d a, i = .fpow2k d a 0) ∨ ∃ d c, 4 < c.toNat ∧ i = .fldc d c := by
  cases i <;> simp [Instr.wf]

/-- The operand check of R108 in the fields of the command's word (R101, R103). -/
theorem wf_eq_false_iff_fields (i : Instr) :
    i.wf = false ↔ fieldOp (encode i) = 0x0A ∧ fieldImm (encode i) = 0 ∨
      fieldOp (encode i) = 0x13 ∧ 4 < (fieldImm (encode i)).toNat := by
  cases i <;> simp [Instr.wf, encode]

/-- Settles O14: FPOW2K asks for k ≠ 0, and the ROM has no value at c > 4. -/
theorem illFormedCommandsFault : Obligations.IllFormedCommandsFault := by
  intro s d a c
  refine ⟨rfl, fun hc => ?_⟩
  have hrom : romValue c = none := by
    rw [← Option.not_isSome_iff_eq_none, romValue_isSome]
    simpa using hc
  simp only [exec, execFldc, hrom]

/-! ### A write to CMD (R120) -/

theorem State.writeCmd_of_decode_error {s : State} {v : Limb} {e : DecodeError} (hidle : s.busy = false)
    (hdec : decode v = .error e) : s.writeCmd v = s.reject (Cause.ofCommand e (v.extractLsb' 0 32)) := by
  simp [State.writeCmd, hidle, hdec]

theorem State.writeCmd_of_decode_ok {s : State} {v : Limb} {i : Instr} (hidle : s.busy = false)
    (hdec : decode v = .ok i) : s.writeCmd v = s.accept i := by
  simp [State.writeCmd, hidle, hdec]

/-- Settles O3: of the decoder's answers ILLEGAL_OPCODE is the one without a row. -/
theorem reservedOpcodesAreIllegal : Obligations.ReservedOpcodesAreIllegal := by
  refine ⟨fun v => ?_, by decide, fun s v => State.writeCmd_of_decode_error⟩
  rw [← rowOf_eq_none_iff]
  refine ⟨fun hdec => ?_, decode_of_rowOf_none⟩
  rcases decode_cases v with ⟨hrow, -⟩ | ⟨-, hd⟩ | ⟨i, -, -, hd⟩ | ⟨i, -, -, hd⟩
  · exact hrow
  all_goals cases hd.symm.trans hdec

/-- Settles O4: with a row, RESERVED_FIELD is the answer to exactly the writes that encode no command. -/
theorem reservedFieldsAreRejected : Obligations.ReservedFieldsAreRejected := by
  refine ⟨fun v row hrow => ?_, fun s v => State.writeCmd_of_decode_error⟩
  have hiff : decode v = .error .reservedField ↔ ∀ i : Instr, v ≠ (encode i).setWidth 64 := by
    refine ⟨fun hdec => ?_, fun hnone =>
      decode_of_reservedField hrow ((reservedField_iff_not_encoding hrow).2 hnone)⟩
    rcases decode_cases v with ⟨-, hd⟩ | ⟨hnone, -⟩ | ⟨i, -, -, hd⟩ | ⟨i, -, -, hd⟩
    case inr.inl => exact hnone
    all_goals cases hd.symm.trans hdec
  exact ⟨hiff.trans (reservedField_iff_not_encoding hrow).symm, hiff⟩

theorem decode_eq_badOperand_iff (v : Limb) :
    decode v = .error .badOperand ↔ ∃ i : Instr, i.wf = false ∧ v = (encode i).setWidth 64 := by
  refine ⟨fun hdec => ?_, ?_⟩
  · rcases decode_cases v with ⟨-, hd⟩ | ⟨-, hd⟩ | ⟨i, hwf, hv, -⟩ | ⟨i, -, -, hd⟩
    case inr.inr.inl => exact ⟨i, hwf, hv⟩
    all_goals cases hd.symm.trans hdec
  · rintro ⟨i, hwf, rfl⟩
    rw [decode_encode, hwf, if_neg Bool.false_ne_true]

/-- Settles O5: BAD_OPERAND is the answer to the encodings of the two ill-formed commands. -/
theorem badOperandsAreRejected : Obligations.BadOperandsAreRejected := by
  refine ⟨fun v => ?_, fun s v => State.writeCmd_of_decode_error⟩
  rw [decode_eq_badOperand_iff]
  constructor
  · rintro ⟨i, hwf, rfl⟩
    rcases (wf_eq_false_iff i).1 hwf with ⟨d, a, rfl⟩ | ⟨d, c, hc, rfl⟩
    · exact .inl ⟨d, a, rfl⟩
    · exact .inr ⟨d, c, hc, rfl⟩
  · rintro (⟨d, a, rfl⟩ | ⟨d, c, hc, rfl⟩)
    · exact ⟨_, (wf_eq_false_iff _).2 (.inl ⟨d, a, rfl⟩), rfl⟩
    · exact ⟨_, (wf_eq_false_iff _).2 (.inr ⟨d, c, hc, rfl⟩), rfl⟩

theorem State.hostWrite_cmd (s : State) (v : Limb) :
    s.hostWrite .w64 0xF00 v = (s.writeCmd v).respond .writeAck := by
  rw [s.hostWrite_of_legal v (by decide), State.writeWindow, windowMap_cmd]

@[simp] theorem State.writeCmd_responses (s : State) (v : Limb) : (s.writeCmd v).responses = s.responses := by
  rcases writeCmd_cases s v with ⟨-, h⟩ | ⟨-, i, -, h⟩ | ⟨-, e, -, h⟩ <;> rw [h] <;> rfl

/-- Settles O9: the three refusals in the order of the decoder's checks; a write that passes them is the encoding of
a well-formed command, which is accepted. -/
theorem commandWriteAcceptsOrRejects : Obligations.CommandWriteAcceptsOrRejects := by
  intro s v
  rw [s.hostWrite_cmd]
  refine ⟨by simp, fun hbusy => (s.hostWrite_cmd v).symm.trans (State.hostWrite_cmd_of_busy v hbusy),
    fun hidle => ?_⟩
  cases hrow : rowOf (v.extractLsb' 26 6).toNat with
  | none => exact congrArg (·.respond .writeAck) (State.writeCmd_of_decode_error hidle (decode_of_rowOf_none hrow))
  | some row =>
    dsimp only
    split_ifs with hbad hoperand
    · rw [State.writeCmd_of_decode_error hidle (decode_of_reservedField hrow hbad)]
      rfl
    all_goals
      obtain ⟨i, rfl⟩ : ∃ i, v = (encode i).setWidth 64 := by
        simpa using mt (reservedField_iff_not_encoding hrow).2 hbad
      rw [← fieldOp_low, ← fieldImm_low, extractLsb'_setWidth_low, ← wf_eq_false_iff_fields] at hoperand
    · rw [State.writeCmd_of_decode_error hidle ((decode_eq_badOperand_iff _).2 ⟨i, hoperand, rfl⟩)]
      rfl
    · rw [State.writeCmd_of_decode_ok hidle ((decode_encode i).trans (if_pos (Bool.eq_true_of_not_eq_false hoperand)))]
      exact ⟨i, rfl, rfl⟩

end Sys2Proof.Machine
end

section
/-! PROOFS. The pseudo-instructions (R111): each expansion is followed command by command, and what it leaves is read
from the register file. -/

namespace Sys2Proof.Machine

/-! ### Commands in sequence -/

@[simp] theorem execAll_nil (s : State) : execAll [] s = .next s := rfl

theorem execAll_cons {i : Instr} {s t : State} (h : exec i s = .next t) (rest : List Instr) :
    execAll (i :: rest) s = execAll rest t := by
  simp [execAll, h]

theorem execAll_fldc {c : BitVec 8} {v : Nat} (h : romValue c = some v) (d : FReg) (rest : List Instr) (s : State) :
    execAll (.fldc d c :: rest) s = execAll rest (s.setF d (toF v)) :=
  execAll_cons (by simp [exec, execFldc, h]) rest

theorem exec_fmul_of_dom {s : State} {a b : FReg} (ha : dom (s.natF a)) (hb : dom (s.natF b)) (d : FReg) :
    exec (.fmul d a b) s = .next (s.setF d (toF (mmul (s.natF a) (s.natF b)))) := by
  simp [exec, execFmul, State.guarded, ha, hb]

theorem exec_fsub_of_dom {s : State} {a b : FReg} (ha : dom (s.natF a)) (hb : dom (s.natF b)) (d : FReg) :
    exec (.fsub d a b) s = .next (s.setF d (toF (subP (s.natF a) (s.natF b)))) := by
  simp [exec, execFsub, State.guarded, ha, hb]

/-! ### What the registers hold -/

theorem State.natF_setF_toF (s : State) (d : FReg) {v : Nat} (hv : v < Config.p) :
    (s.setF d (toF v)).natF d = v := by
  rw [State.natF_setF, if_pos rfl, toNat_toF_of_lt hv]

theorem State.natF_setF_ne (s : State) {i j : FReg} (v : FWord) (h : j ≠ i) : (s.setF i v).natF j = s.natF j := by
  rw [State.natF_setF, if_neg h]

theorem dom_of_lt_p {v : Nat} (h : v < Config.p) : dom v := by
  unfold dom; omega

/-- The Montgomery product with R² mod p brings a value into Montgomery form (R111, R34). -/
theorem mmul_radix_sq (x : Nat) : mmul x (Config.radix * Config.radix % Config.p) = x * Config.radix % Config.p := by
  refine eq_of_cast_eq (mmul_lt _ _) (Nat.mod_lt _ p_pos) ?_
  rw [cast_mmul, cast_mod_self, cast_mod_self, Nat.cast_mul, Nat.cast_mul]
  linear_combination (x : Zp) * Config.radix * cast_radix_mul_rInv

/-- The Montgomery product with 1 takes a value out of Montgomery form (R111, R4). -/
theorem mmul_one (x : Nat) : mmul x 1 = val x := by
  rw [mmul, Nat.mul_one, redc, val]

theorem mont_one : mont 1 = Config.radix % Config.p := by
  rw [mont, Nat.one_mul]

/-! ### The expansions -/

/-- A constant loaded into a register. -/
theorem execAll_load {c : BitVec 8} {v : Nat} (h : romValue c = some v) (hv : v < Config.p) (d : FReg) (s : State) :
    ∃ u, execAll [.fldc d c] s = .next u ∧ u.natF d = v :=
  ⟨_, execAll_fldc h d [] s, s.natF_setF_toF d hv⟩

/-- A constant loaded into the real coordinate of a pair, with the imaginary coordinate cleared. -/
theorem execAll_loadPair {c : BitVec 8} {v : Nat} (h : romValue c = some v) (hv : v < Config.p) (x : EPair)
    (s : State) :
    ∃ u, execAll [.fldc (reReg x) c, .fldc (imReg x) 0] s = .next u ∧ u.natRe x = v ∧ u.natIm x = 0 := by
  refine ⟨_, (execAll_fldc h _ _ s).trans (execAll_fldc rfl _ [] _), ?_, State.natF_setF_toF _ _ p_pos⟩
  rw [State.natRe, State.natF_setF_ne _ _ (reReg_ne_imReg x x), s.natF_setF_toF _ hv]

/-- The Montgomery product with a constant loaded into a scratch register: TOMONT and FROMMONT (R111). -/
theorem execAll_mulByConst {c : BitVec 8} {v : Nat} (h : romValue c = some v) (hv : v < Config.p) {a t : FReg}
    (hta : t ≠ a) {s : State} (ha : dom (s.natF a)) (d : FReg) :
    ∃ u, execAll [.fldc t c, .fmul d a t] s = .next u ∧ u.natF d = mmul (s.natF a) v := by
  have hat : (s.setF t (toF v)).natF a = s.natF a := s.natF_setF_ne _ hta.symm
  have htt : (s.setF t (toF v)).natF t = v := s.natF_setF_toF t hv
  refine ⟨_, (execAll_fldc h _ _ s).trans (execAll_cons (exec_fmul_of_dom ?_ ?_ d) []), ?_⟩
  · rwa [hat]
  · rw [htt]; exact dom_of_lt_p hv
  · rw [State.natF_setF_toF _ _ (mmul_lt _ _), hat, htt]

/-- A difference from the constant 0, loaded into the destination: FNEG (R111). -/
theorem execAll_fneg {d a : FReg} (hda : d ≠ a) {s : State} (ha : dom (s.natF a)) :
    ∃ u, execAll [.fldc d 0, .fsub d d a] s = .next u ∧ u.natF d = subP 0 (s.natF a) := by
  have hdd : (s.setF d (toF 0)).natF d = 0 := s.natF_setF_toF d p_pos
  have had : (s.setF d (toF 0)).natF a = s.natF a := s.natF_setF_ne _ hda.symm
  refine ⟨_, (execAll_fldc rfl _ _ s).trans (execAll_cons (exec_fsub_of_dom ?_ ?_ d) []), ?_⟩
  · rw [hdd]; exact dom_of_lt_p p_pos
  · rwa [had]
  · rw [State.natF_setF_toF _ _ (subP_lt _ _), hdd, had]

/-- A pair copied coordinate by coordinate, onto itself too: EMOV (R111). -/
theorem execAll_emov (x y : EPair) (s : State) :
    ∃ u, execAll [.fmov (reReg x) (reReg y), .fmov (imReg x) (imReg y)] s = .next u ∧
      u.natRe x = s.natRe y ∧ u.natIm x = s.natIm y := by
  refine ⟨_, rfl, ?_, ?_⟩
  · rw [State.natRe, State.natF_setF_ne _ _ (reReg_ne_imReg x x), State.natF_setF, if_pos rfl]
    rfl
  · rw [State.natIm, State.natF_setF, if_pos rfl, State.getF_setF_ne _ _ (reReg_ne_imReg x y).symm]
    rfl

/-- Settles O60: each expansion by the lemma of its shape, with the constant that FLDC loads. -/
theorem pseudoInstructionsMeanWhatTheySay : Obligations.PseudoInstructionsMeanWhatTheySay := by
  intro s d a t x y
  have hR : Config.radix % Config.p < Config.p := Nat.mod_lt _ p_pos
  have hR2 : Config.radix * Config.radix % Config.p < Config.p := Nat.mod_lt _ p_pos
  have h1 : 1 < Config.p := by decide +kernel
  rw [mont_one, two_pow_eq_radix, ← mmul_radix_sq, ← mmul_one]
  refine ⟨execAll_load rfl p_pos d s, execAll_load rfl hR d s, fun hda ha => ?_, fun hta ha => ?_, fun hta ha => ?_,
    execAll_emov x y s, execAll_loadPair rfl p_pos x s, execAll_loadPair rfl hR x s⟩
  · obtain ⟨u, hu, hd⟩ := execAll_fneg (bne_iff_ne.1 hda) ha
    exact ⟨u, hu, by rw [hd, coe_subP, Nat.cast_zero]⟩
  · exact execAll_mulByConst rfl hR2 (bne_iff_ne.1 hta) ha d
  · exact execAll_mulByConst rfl h1 (bne_iff_ne.1 hta) ha d

end Sys2Proof.Machine
end

section
/-! PROOFS. The Montgomery multiplier core (40_residue.md): what each datapath operation computes on integers, then
the command that writes it; and the latency as a function of the opcode. -/

namespace Sys2Proof.Machine

/-! ### Register contents as integers (R10) -/

theorem State.natF_lt (s : State) (i : FReg) : s.natF i < 2 ^ 768 := (s.getF i).isLt
theorem State.natD_lt (s : State) (i : DReg) : s.natD i < 2 ^ 1536 := (s.getD i).isLt

theorem State.natD_setD_self (s : State) (i : DReg) (v : DWord) : (s.setD i v).natD i = v.toNat := by
  rw [State.natD, State.getD_setD_self]

@[simp] theorem State.setD_setD (s : State) (i : DReg) (v w : DWord) : (s.setD i v).setD i w = s.setD i w := by
  simp [State.setD]

/-! ### The product (R140) -/

/-- The largest product of two F registers fits a D register (R140). -/
theorem mul_le_of_lt_two_pow {x y : Nat} (hx : x < 2 ^ 768) (hy : y < 2 ^ 768) :
    x * y ≤ 2 ^ 1536 - 2 ^ 769 + 1 :=
  calc x * y ≤ (2 ^ 768 - 1) * (2 ^ 768 - 1) := Nat.mul_le_mul (Nat.le_sub_one_of_lt hx) (Nat.le_sub_one_of_lt hy)
    _ = 2 ^ 1536 - 2 ^ 769 + 1 := by decide +kernel

theorem toNat_toD_mul (s : State) (a b : FReg) : (toD (s.natF a * s.natF b)).toNat = s.natF a * s.natF b :=
  toNat_toD ((mul_le_of_lt_two_pow (s.natF_lt a) (s.natF_lt b)).trans_lt (by decide +kernel))

/-- Settles O15: the product of two registers keeps below the size of a D register. -/
theorem mulwIsExact : Obligations.MulwIsExact := fun _ a b s =>
  ⟨rfl, _, rfl, toNat_toD_mul s a b,
    (toNat_toD_mul s a b).trans_le (mul_le_of_lt_two_pow (s.natF_lt a) (s.natF_lt b))⟩

/-! ### The reduction (R142, R153) -/

/-- The reduction undoes the radix modulo p (R142). -/
theorem redc_mul_radix_mod (t : Nat) : redc t * Config.radix % Config.p = t % Config.p := by
  rw [mod_eq_iff_cast_eq, Nat.cast_mul, cast_redc, mul_assoc, cast_rInv_mul_radix, mul_one]

/-- REDC inside its domain writes the reduction (R142). -/
theorem exec_redc_of_lt {s : State} {a : DReg} (h : s.natD a < Config.p * Config.radix) (d : FReg) :
    exec (.redc d a) s = .next ((s.setD a 0).setF d (toF (redc (s.natD a)))) := by
  rw [exec, execRedc, if_pos h]

/-- Settles O16: inside the domain F[d] holds the canonical reduction, and outside it the free value. -/
theorem redcReduces : Obligations.RedcReduces := by
  intro d a s
  refine ⟨rfl, ?_⟩
  rw [two_pow_eq_radix]
  by_cases h : s.natD a < Config.p * Config.radix
  · refine ⟨_, exec_redc_of_lt h d, fun _ => ?_⟩
    rw [toNat_toF_of_lt (redc_lt _)]
    exact ⟨redc_lt _, redc_mul_radix_mod _⟩
  · exact ⟨_, rfl, fun hlt => absurd hlt h⟩

/-- Settles O42: the product of two domain operands is exact in D[t] and inside REDC's domain, so both write its
reduction. -/
theorem fmulEqualsMulwRedc : Obligations.FmulEqualsMulwRedc := by
  intro d a b t s ha hb
  have hprod : (s.setD t (toD (s.natF a * s.natF b))).natD t = s.natF a * s.natF b := by
    rw [State.natD_setD_self, toNat_toD_mul]
  refine ⟨_, exec_fmul_of_dom ha hb d, ?_⟩
  calc execAll [.mulw t a b, .redc d t] s
    _ = execAll [.redc d t] (s.setD t (toD (s.natF a * s.natF b))) := execAll_cons rfl _
    _ = _ := execAll_cons (exec_redc_of_lt (hprod.trans_lt (mul_lt_of_dom ha hb)) d) []
    _ = _ := by rw [hprod, State.setD_setD, execAll_nil, mmul]

/-! ### The double-width subtract (R148) -/

theorem subLazy_of_le {x y : Nat} (h : y ≤ x) : subLazy x y = x - y := if_pos h

theorem coe_subLazy_of_lt {x y : Nat} (h : x < y) :
    (subLazy x y : Int) = ((x : Int) - y + Config.p * Config.radix) % 2 ^ 1536 := by
  rw [subLazy, if_neg (Nat.not_le.2 h)]
  exact Int.toNat_of_nonneg (Int.emod_nonneg _ (by decide +kernel))

/-- A borrow of at most p·2^768 is made good without wrapping (R148). -/
theorem subLazy_add_of_borrow {x y : Nat} (h : x < y) (hb : y - x ≤ Config.p * Config.radix) :
    subLazy x y + y = x + Config.p * Config.radix := by
  have hfit := p_mul_radix_lt
  have hcoe := coe_subLazy_of_lt h
  rw [Int.emod_eq_of_lt (by omega) (by omega)] at hcoe
  omega

/-- Settles O19: one clause for each branch of the subtract, and no wrap while the borrow stays within p·2^768. -/
theorem dsublSubtracts : Obligations.DsublSubtracts := by
  intro d a b s
  have hv : (toD (subLazy (s.natD a) (s.natD b))).toNat = subLazy (s.natD a) (s.natD b) :=
    toNat_toD (subLazy_lt (s.natD_lt a))
  refine ⟨rfl, _, rfl, ?_⟩
  rw [hv, two_pow_eq_radix]
  refine ⟨subLazy_of_le, fun hlt => ?_, fun hlt hb => ?_⟩
  · rw [coe_subLazy_of_lt hlt, ← two_pow_eq_radix, Nat.cast_pow, Nat.cast_ofNat]
  · have hsum := subLazy_add_of_borrow hlt hb
    refine ⟨by omega, ?_⟩
    rw [hsum, Nat.add_mul_mod_self_left]

/-! ### The conditional subtraction (R150) -/

theorem strongReduce_of_le {x : Nat} (h : Config.p ≤ x) : strongReduce x = x - Config.p := if_pos h

theorem strongReduce_of_lt {x : Nat} (h : x < Config.p) : strongReduce x = x := if_neg (Nat.not_le.2 h)

/-- Below 2p one conditional subtraction is the remainder (R150). -/
theorem strongReduce_of_dom {x : Nat} (h : dom x) : strongReduce x = x % Config.p := by
  obtain hlt | hle := Nat.lt_or_ge x Config.p
  · rw [strongReduce_of_lt hlt, Nat.mod_eq_of_lt hlt]
  · rw [strongReduce_of_le hle, Nat.mod_eq_sub_mod hle, Nat.mod_eq_of_lt (by unfold dom at h; omega)]

theorem strongReduce_le (x : Nat) : strongReduce x ≤ x := by
  unfold strongReduce
  split
  · exact Nat.sub_le _ _
  · exact Nat.le_refl _

/-- Settles O20: the result is the conditional subtraction, and the latency reads no state. -/
theorem sredSubtractsOnce : Obligations.SredSubtractsOnce := by
  intro d s
  refine ⟨rfl, fun _ => rfl, _, rfl, ?_⟩
  rw [toNat_toF ((strongReduce_le _).trans_lt (s.natF_lt d))]
  exact ⟨strongReduce_of_le, strongReduce_of_lt, strongReduce_of_dom⟩

/-! ### The lazy additions (R144, R146) -/

/-- Settles O17: the sum of two words is the sum of their integers, its carry discarded. -/
theorem addlWraps : Obligations.AddlWraps := fun _ a b s =>
  ⟨rfl, _, rfl, BitVec.toNat_add (s.getF a) (s.getF b)⟩

/-- Settles O18: as for ADDL, at double width. -/
theorem daddlWraps : Obligations.DaddlWraps := fun _ a b s =>
  ⟨rfl, _, rfl, BitVec.toNat_add (s.getD a) (s.getD b)⟩

/-! ### Latency (R152, R218, R262) -/

/-- The opcode says whether the command is FPOW2K (R105). -/
theorem exists_eq_fpow2k_iff_opcode (i : Instr) : (∃ d a k, i = .fpow2k d a k) ↔ opcodeOf i = 0x0A := by
  cases i <;> simp [opcodeOf, encode]

/-- The opcode says whether the command is FVEQ or EVEQ (R105). -/
theorem writesEq_iff_opcode (i : Instr) : writesEq i = true ↔ opcodeOf i = 0x11 ∨ opcodeOf i = 0x1D := by
  cases i <;> simp [opcodeOf, encode, writesEq]

/-- Outside FPOW2K, FVEQ and EVEQ the latency reads the opcode alone (R152, R218, R262). -/
theorem latency_of_opcode_ne {i : Instr} (hpow : opcodeOf i ≠ 0x0A) (hcmp : writesEq i = false) (s : State) :
    latency i s = Config.latency (opcodeOf i) 0 := by
  cases i with
  | fpow2k d a k => exact absurd ((exists_eq_fpow2k_iff_opcode _).1 ⟨d, a, k, rfl⟩) hpow
  | fveq _ _ | eveq _ _ => cases hcmp
  | _ => rfl

/-- Settles O49: one opcode is FPOW2K for both commands, whose counts agree, or for neither. -/
theorem latencyDependsOnOpcodeAlone : Obligations.LatencyDependsOnOpcodeAlone := by
  intro i j s t hop hcmp hk
  have hcmp' : writesEq j = false := by
    rw [← Bool.not_eq_true, writesEq_iff_opcode] at hcmp ⊢
    rwa [← hop]
  by_cases hpow : opcodeOf i = 0x0A
  · obtain ⟨d, a, k, rfl⟩ := (exists_eq_fpow2k_iff_opcode i).2 hpow
    obtain ⟨d', a', k', rfl⟩ := (exists_eq_fpow2k_iff_opcode j).2 (hop ▸ hpow)
    obtain rfl := hk _ _ _ _ _ _ rfl rfl
    exact congrArg (Config.latency · k) hop
  · rw [latency_of_opcode_ne hpow hcmp, latency_of_opcode_ne (hop ▸ hpow) hcmp', hop]

end Sys2Proof.Machine
end

section
/-! PROOFS. The powers of the prime-field unit (R196, R202 to R206, R216): the chain ROM as an exponent, and every
procedure of the sequencer as one Montgomery-form power `mpow` of its input. -/

namespace Sys2Proof.Machine

/-! ### The chain ROM and the constants (R2, R9, R214) -/

/-- One pair of the chain ROM on exponents (R214), as `chainStep` is on Montgomery forms. -/
def exponentStep (e : Nat) (sm : Nat × Nat) : Nat := e * 2 ^ sm.1 + sm.2

theorem chainExponent_eq_foldl : chainExponent = chainRom.foldl exponentStep chainInit := rfl

theorem chainExponent_eq : chainExponent = (Config.p - 3) / 4 := by decide +kernel

/-- Every multiplier of the chain has an entry in the table of odd powers (R214, R216). -/
theorem chainRom_odd : ∀ sm ∈ chainRom, sm.2 % 2 = 1 ∧ sm.2 ≤ 31 := by decide +kernel

theorem p_mod_four : Config.p % 4 = 3 := by decide +kernel

/-- Settles O38: closed computations on the ROM and the constants. -/
theorem chainRomAndConstants : Obligations.ChainRomAndConstants := by
  unfold Obligations.ChainRomAndConstants
  rw [two_pow_eq_radix, ← p_add_one]
  exact ⟨rfl, by decide +kernel, by decide +kernel, chainRom_odd, chainExponent_eq, by decide +kernel, rfl,
    by decide +kernel, by decide +kernel, p_mod_four, radix_mul_rInv, by decide +kernel, by decide⟩

/-! ### Montgomery-form powers (R12) -/

theorem mul_radix_mul_rInv (u : Zp) : u * Config.radix * Config.rInv = u := by
  rw [mul_assoc, cast_radix_mul_rInv, mul_one]

theorem mul_rInv_mul_radix (u : Zp) : u * Config.rInv * Config.radix = u := by
  rw [mul_assoc, cast_rInv_mul_radix, mul_one]

/-- A canonical value that reads as v·R in Z/p is the Montgomery form of v (R4). -/
theorem eq_mont_of_cast_eq {x v : Nat} (hx : x < Config.p) (h : (x : Zp) = v * Config.radix) : x = mont v :=
  eq_of_cast_eq hx (mont_lt v) (h.trans (cast_mont v).symm)

theorem mont_mod (v : Nat) : mont (v % Config.p) = mont v := by
  rw [mont, Nat.mod_mul_mod, mont]

theorem mpow_eq_mont_pow (x e : Nat) : mpow x e = mont (val x ^ e) := mont_mod _

theorem cast_mpow (x e : Nat) : ((mpow x e : Nat) : Zp) = (x * Config.rInv) ^ e * Config.radix := by
  rw [mpow_eq_mont_pow, cast_mont, Nat.cast_pow, cast_val]

/-- A canonical value that reads as a power of the logical value is the Montgomery-form power (R12). -/
theorem eq_mpow_of_cast_eq {x y e : Nat} (hy : y < Config.p)
    (h : (y : Zp) = (x * Config.rInv) ^ e * Config.radix) : y = mpow x e :=
  eq_of_cast_eq hy (mont_lt _) (h.trans (cast_mpow x e).symm)

theorem cast_val_mpow (x e : Nat) : ((val (mpow x e) : Nat) : Zp) = (val x : Zp) ^ e := by
  rw [cast_val, cast_mpow, mul_radix_mul_rInv, cast_val]

theorem mpow_mpow (x a b : Nat) : mpow (mpow x a) b = mpow x (a * b) :=
  eq_mpow_of_cast_eq (mont_lt _) (by rw [cast_mpow, cast_mpow, mul_radix_mul_rInv, pow_mul])

theorem mmul_mpow_self (x e : Nat) : mmul (mpow x e) x = mpow x (e + 1) :=
  eq_mpow_of_cast_eq (mmul_lt _ _) (by rw [cast_mmul, cast_mpow, pow_succ]; ring)

theorem mmul_self_eq_mpow (x : Nat) : mmul x x = mpow x 2 :=
  eq_mpow_of_cast_eq (mmul_lt x x) (by
    rw [cast_mmul, sq, ← mul_assoc, mul_rInv_mul_radix, mul_right_comm])

/-- Zero stays zero in every power of the unit (R181). -/
theorem mpow_eq_zero {x e : Nat} (he : e ≠ 0) (hx : x % Config.p = 0) : mpow x e = 0 := by
  have hval : val x = 0 := by rw [val, Nat.mul_mod, hx, Nat.zero_mul, Nat.zero_mod]
  rw [mpow_eq_mont_pow, hval, zero_pow he, mont, Nat.zero_mul, Nat.zero_mod]

/-! ### The procedures as powers (R196, R202 to R206, R216) -/

theorem squareTimes_eq_mpow {k : Nat} (hk : 0 < k) (x : Nat) : squareTimes k x = mpow x (2 ^ k) :=
  eq_mpow_of_cast_eq (squareTimes_lt (.inr hk)) (cast_squareTimes k x)

/-- One step of the sequencer does to the exponent what the ROM pair says (R214, R216). -/
theorem cast_chainStep {x acc e : Nat} {sm : Nat × Nat} (hodd : sm.2 % 2 = 1 ∧ sm.2 ≤ 31)
    (hacc : (acc : Zp) = (x * Config.rInv) ^ e * Config.radix) :
    ((chainStep (oddPowers x) acc sm : Nat) : Zp) = (x * Config.rInv) ^ exponentStep e sm * Config.radix := by
  obtain ⟨hm, hm31⟩ := hodd
  rw [chainStep, cast_mmul, cast_squareTimes, cast_oddPower x sm.2 hm hm31, hacc, mul_radix_mul_rInv, ← mul_assoc,
    mul_radix_mul_rInv, ← pow_mul, mul_right_comm, ← pow_add, exponentStep]

/-- The sequencer over any part of the chain, by induction on its pairs (R216). -/
theorem cast_foldl_chainStep (x : Nat) {pairs : List (Nat × Nat)} :
    ∀ {acc e : Nat}, (∀ sm ∈ pairs, sm.2 % 2 = 1 ∧ sm.2 ≤ 31) →
      (acc : Zp) = (x * Config.rInv) ^ e * Config.radix →
      ((pairs.foldl (chainStep (oddPowers x)) acc : Nat) : Zp) =
        (x * Config.rInv) ^ pairs.foldl exponentStep e * Config.radix := by
  induction pairs with
  | nil => exact fun _ hacc => hacc
  | cons sm rest ih =>
    intro acc e hodd hacc
    obtain ⟨hsm, hrest⟩ := List.forall_mem_cons.1 hodd
    exact ih hrest (cast_chainStep hsm hacc)

theorem p34_eq_mpow (x : Nat) : p34 x = mpow x ((Config.p - 3) / 4) := by
  refine eq_mpow_of_cast_eq (p34_lt x) ?_
  rw [← chainExponent_eq, chainExponent_eq_foldl]
  exact cast_foldl_chainStep x chainRom_odd (cast_oddPower x chainInit rfl (by decide))

/-- Settles O37: by induction on the chain, the sequencer computes the power with the chain's exponent. -/
theorem p34ChainIsTheFixedPower : Obligations.P34ChainIsTheFixedPower := p34_eq_mpow

/-- Square, P34, square, multiply: the exponent is 2·((p−3)/4·2) + 1 = p − 2 (R202). -/
theorem invP_eq_mpow (x : Nat) : invP x = mpow x (Config.p - 2) := by
  have hexp : 2 * ((Config.p - 3) / 4 * 2) + 1 = Config.p - 2 := by
    have := p_mod_four
    omega
  rw [invP, mmul_self_eq_mpow, mmul_self_eq_mpow, p34_eq_mpow, mpow_mpow, mpow_mpow, mmul_mpow_self, hexp]

/-- P34, multiply: the exponent is (p−3)/4 + 1 = (p+1)/4 (R204). -/
theorem sqrtP_eq_mpow (x : Nat) : sqrtP x = mpow x ((Config.p + 1) / 4) := by
  have hexp : (Config.p - 3) / 4 + 1 = (Config.p + 1) / 4 := by
    have := p_mod_four
    omega
  rw [sqrtP, mmul, Nat.mul_comm, ← mmul, p34_eq_mpow, mmul_mpow_self, hexp]

/-! ### Inverses and roots in Z/p (R181, R202, R204) -/

/-- The power p − 2 is the inverse, and 0 at 0 (R181, R202). -/
theorem pow_p_sub_two (u : Zp) : u ^ (Config.p - 2) = u⁻¹ := by
  have := fact_p_prime
  have hp : 3 ≤ Config.p := by decide +kernel
  by_cases hu : u = 0
  · rw [hu, zero_pow (by omega), inv_zero]
  · refine eq_inv_of_mul_eq_one_left ?_
    rw [← pow_succ, show Config.p - 2 + 1 = Config.p - 1 by omega, ZMod.pow_card_sub_one_eq_one hu]

theorem cast_invP (x : Nat) : ((invP x : Nat) : Zp) = (x * Config.rInv : Zp)⁻¹ * Config.radix := by
  rw [invP_eq_mpow, cast_mpow, pow_p_sub_two]

/-- The inverse times the element is 1, in logical values (R181). -/
theorem val_mul_val_invP {x : Nat} (hx : val x ≠ 0) : val x * val (invP x) % Config.p = 1 := by
  have := fact_p_prime
  have hne : (x * Config.rInv : Zp) ≠ 0 := fun h =>
    hx (eq_of_cast_eq (val_lt x) p_pos (by rw [cast_val, h, Nat.cast_zero]))
  refine eq_of_cast_eq (Nat.mod_lt _ p_pos) p_prime.one_lt ?_
  rw [cast_mod_self, Nat.cast_mul, cast_val, cast_val, cast_invP, mul_radix_mul_rInv, mul_inv_cancel₀ hne,
    Nat.cast_one]

/-- Inverting twice reduces the element modulo p (R181, R202). -/
theorem invP_invP (x : Nat) : invP (invP x) = x % Config.p := by
  have := fact_p_prime
  refine eq_of_cast_eq (invP_lt _) (Nat.mod_lt _ p_pos) ?_
  rw [cast_invP, cast_invP, cast_mod_self, mul_radix_mul_rInv, inv_inv, mul_rInv_mul_radix]

/-- The root of a square w² is w^((p+1)/2), whose square is w^(p+1) = w² (R204). -/
theorem val_sqrtP_sq {x w : Nat} (hw : w ^ 2 % Config.p = val x) : val (sqrtP x) ^ 2 % Config.p = val x := by
  have := fact_p_prime
  have hexp : 2 * ((Config.p + 1) / 4 * 2) = Config.p + 1 := by
    have := p_mod_four
    omega
  refine eq_of_cast_eq (Nat.mod_lt _ p_pos) (val_lt x) ?_
  rw [cast_mod_self, Nat.cast_pow, sqrtP_eq_mpow, cast_val_mpow, ← hw, cast_mod_self, Nat.cast_pow, ← pow_mul,
    ← pow_mul, hexp, pow_succ, ZMod.pow_card, sq]

/-- The root of a square w² is the square of w^((p+1)/4) (R204). -/
theorem sq_mod_eq_val_sqrtP {x w : Nat} (hw : w ^ 2 % Config.p = val x) :
    (w ^ ((Config.p + 1) / 4)) ^ 2 % Config.p = val (sqrtP x) := by
  refine eq_of_cast_eq (Nat.mod_lt _ p_pos) (val_lt _) ?_
  rw [cast_mod_self, sqrtP_eq_mpow, cast_val_mpow, ← hw, cast_mod_self, Nat.cast_pow, Nat.cast_pow, Nat.cast_pow,
    pow_right_comm]

end Sys2Proof.Machine
end

section
/-! PROOFS. The commands of the prime-field unit (41_prime_field.md): each writes the Montgomery form of its value
behind the domain guard, and draws a free value outside it. -/

namespace Sys2Proof.Machine

/-! ### The domain guard (R15, R180) -/

/-- Inside the domain the guard of one operand lets the value through (R15). -/
theorem State.guarded_one_of_dom {s : State} {a : FReg} (ha : dom (s.natF a)) (slot v : Nat) :
    s.guarded [s.natF a] slot v = toF v :=
  State.guarded_of_dom (List.forall_mem_singleton.2 ha) slot v

theorem State.guarded_two_of_dom {s : State} {a b : FReg} (ha : dom (s.natF a)) (hb : dom (s.natF b))
    (slot v : Nat) : s.guarded [s.natF a, s.natF b] slot v = toF v :=
  State.guarded_of_dom (List.forall_mem_cons.2 ⟨ha, List.forall_mem_singleton.2 hb⟩) slot v

/-- A command with guarded operands writes its F register, or both coordinates of its pair, behind the guard on
exactly those operands (R180, R240). -/
theorem exec_guarded_cases {i : Instr} (hwf : i.wf = true) (hne : guardedOperands i ≠ []) (s : State) :
    (∃ d v, writesF i = [d] ∧
      exec i s = .next (s.setF d (s.guarded ((guardedOperands i).map s.natF) 0 v))) ∨
    (∃ d re im, writesF i = [reReg d, imReg d] ∧
      exec i s = .next (s.writeE ((guardedOperands i).map s.natF) d re im)) := by
  cases i with
  | fmul d _ _ | fsqr d _ | fadd d _ _ | fsub d _ _ | finv d _ | fsqrt d _ | fp34 d _ =>
    exact .inl ⟨d, _, rfl, rfl⟩
  | fpow2k d a k =>
    have hk : k ≠ 0 := by simpa [Instr.wf] using hwf
    exact .inl ⟨d, _, rfl, if_neg hk⟩
  | emul d _ _ | esqr d _ | eadd d _ _ | esub d _ _ | einv d _ => exact .inr ⟨d, _, _, rfl, rfl⟩
  | _ => exact absurd rfl hne

/-- Settles O43: the guard fails on the operand named, so each register written receives its draw. -/
theorem outOfDomainOperandsDrawFreshValues : Obligations.OutOfDomainOperandsDrawFreshValues := by
  rintro i s hwf ⟨r, hr, hdom⟩
  have hguard (slot v : Nat) :
      s.guarded ((guardedOperands i).map s.natF) slot v = Config.anyF s.tick slot :=
    State.guarded_of_not_dom (fun h => hdom (List.forall_mem_map.1 h r hr)) slot v
  rcases exec_guarded_cases hwf (List.ne_nil_of_mem hr) s with ⟨e, v, hw, hexec⟩ | ⟨e, re, im, hw, hexec⟩
  · rw [hexec, hguard, hw]
    refine ⟨fun d hd => ?_, fun d hd => ?_⟩
    · obtain rfl : e = d := by simpa using hd
      rfl
    · simp at hd
  · rw [hexec, State.writeE, hguard, hguard, hw]
    refine ⟨fun d hd => ?_, fun d hd => ?_⟩
    · simp at hd
    · obtain rfl : e = d := by simpa using hd
      rfl

/-! ### The Montgomery forms written (R190 to R200) -/

/-- A 64-bit immediate is a canonical value (R46, R190). -/
theorem imm_lt_p (v : Limb) : v.toNat < Config.p :=
  v.isLt.trans (by decide +kernel)

/-- Settles O21: the value is Mont(IMM) by definition, and reading it back reduces IMM, which is below p. -/
theorem fsetuGivesMontgomeryForm : Obligations.FsetuGivesMontgomeryForm := by
  intro d s
  refine ⟨rfl, toF (mont s.imm.toNat), rfl, ?_⟩
  rw [toNat_toF_of_lt (mont_lt _), val_mont, Nat.mod_eq_of_lt (imm_lt_p s.imm), two_pow_eq_radix]
  exact ⟨rfl, rfl⟩

theorem mmul_eq_mont (x y : Nat) : mmul x y = mont (val x * val y) := by
  refine eq_mont_of_cast_eq (mmul_lt x y) ?_
  rw [cast_mmul, Nat.cast_mul, cast_val, cast_val, ← mul_assoc, mul_rInv_mul_radix, mul_right_comm]

theorem addP_eq_mont (x y : Nat) : addP x y = mont (val x + val y) := by
  refine eq_mont_of_cast_eq (addP_lt x y) ?_
  rw [cast_addP, Nat.cast_add, cast_val, cast_val, add_mul, mul_rInv_mul_radix, mul_rInv_mul_radix]

theorem subP_eq_mont (x y : Nat) : subP x y = mont (val x + (Config.p - val y)) := by
  refine eq_mont_of_cast_eq (subP_lt x y) ?_
  rw [cast_subP, Nat.cast_add, cast_p_sub (val_lt y).le, cast_val, cast_val, ← sub_eq_add_neg, sub_mul,
    mul_rInv_mul_radix, mul_rInv_mul_radix]

/-- Settles O22: the Montgomery product, as a reduction of the product and as a Montgomery form. -/
theorem fmulMultiplies : Obligations.FmulMultiplies := by
  intro d a b s
  refine ⟨rfl, fun ha hb => ⟨_, exec_fmul_of_dom ha hb d, ?_⟩, fun _ => ⟨_, rfl⟩⟩
  rw [toNat_toF_of_lt (mmul_lt _ _), two_pow_eq_radix]
  exact ⟨mmul_lt _ _, redc_mul_radix_mod _, mmul_eq_mont _ _⟩

theorem exec_fsqr_of_dom {s : State} {a : FReg} (ha : dom (s.natF a)) (d : FReg) :
    exec (.fsqr d a) s = .next (s.setF d (toF (mpow (s.natF a) 2))) := by
  rw [exec, execFsqr, State.guarded_one_of_dom ha, mmul_self_eq_mpow]

theorem exec_fpow2k_of_dom {s : State} {a : FReg} {k : BitVec 8} (hk : k ≠ 0) (ha : dom (s.natF a)) (d : FReg) :
    exec (.fpow2k d a k) s = .next (s.setF d (toF (mpow (s.natF a) (2 ^ k.toNat)))) := by
  have hpos : 0 < k.toNat := Nat.pos_of_ne_zero fun h => hk (BitVec.eq_of_toNat_eq h)
  rw [exec, execFpow2k, if_neg hk, State.guarded_one_of_dom ha, squareTimes_eq_mpow hpos]

theorem toNat_toF_mpow (x e : Nat) : (toF (mpow x e)).toNat = mont (val x ^ e) := by
  rw [mpow_eq_mont_pow, toNat_toF_of_lt (mont_lt _)]

/-- Settles O23: FSQR and FMUL of a register by itself write the same Montgomery product, the square. -/
theorem fsqrSquares : Obligations.FsqrSquares := by
  intro d a s
  refine ⟨rfl, fun ha => ⟨_, exec_fsqr_of_dom ha d, toNat_toF_mpow _ 2, ?_⟩, fun _ => ⟨_, rfl⟩⟩
  rw [exec_fmul_of_dom ha ha, mmul_self_eq_mpow]

/-- The latency of FPOW2K is a function of k alone (R196, R218). -/
theorem latency_fpow2k (d a : FReg) (k : BitVec 8) (s : State) :
    latency (.fpow2k d a k) s = Config.latency 0x0A k := by
  rw [latency, opcodeOf, encode, fieldOp_assembleFields]

/-- Settles O24: k squarings are the power 2^k, one squaring is FSQR, and k = 0 has no well-formed command. -/
theorem fpowIsRepeatedSquaring : Obligations.FpowIsRepeatedSquaring := by
  intro d a k s
  refine ⟨rfl, fun hk ha => ⟨_, exec_fpow2k_of_dom hk ha d, toNat_toF_mpow _ _⟩, fun _ hk => ⟨_, if_neg hk⟩, ?_,
    fun ha => ?_, fun d' a' t => ?_⟩
  · exact (decode_eq_badOperand_iff _).2 ⟨_, (wf_eq_false_iff _).2 (.inl ⟨d, a, rfl⟩), rfl⟩
  · rw [exec_fpow2k_of_dom (by decide) ha, exec_fsqr_of_dom ha]
    rfl
  · rw [latency_fpow2k, latency_fpow2k]

/-- Settles O25: the reduced sum is the Montgomery form of the sum. -/
theorem faddAdds : Obligations.FaddAdds := by
  intro d a b s
  refine ⟨rfl, fun ha hb => ⟨toF (addP (s.natF a) (s.natF b)), ?_, ?_⟩, fun _ => ⟨_, rfl⟩⟩
  · rw [exec, execFadd, State.guarded_two_of_dom ha hb]
  · rw [toNat_toF_of_lt (addP_lt _ _)]
    exact ⟨rfl, addP_eq_mont _ _⟩

/-- Settles O26: the reduced difference, as an integer remainder and as a Montgomery form. -/
theorem fsubSubtracts : Obligations.FsubSubtracts := by
  intro d a b s
  refine ⟨rfl, fun ha hb => ⟨_, exec_fsub_of_dom ha hb d, ?_⟩, fun _ => ⟨_, rfl⟩⟩
  rw [toNat_toF_of_lt (subP_lt _ _)]
  exact ⟨coe_subP _ _, subP_eq_mont _ _⟩

/-! ### The fixed powers (R202 to R206) -/

theorem exec_finv_of_dom {s : State} {a : FReg} (ha : dom (s.natF a)) (d : FReg) :
    exec (.finv d a) s = .next (s.setF d (toF (invP (s.natF a)))) := by
  rw [exec, execFinv, State.guarded_one_of_dom ha]

theorem exec_fsqrt_of_dom {s : State} {a : FReg} (ha : dom (s.natF a)) (d : FReg) :
    exec (.fsqrt d a) s = .next (s.setF d (toF (sqrtP (s.natF a)))) := by
  rw [exec, execFsqrt, State.guarded_one_of_dom ha]

theorem exec_fp34_of_dom {s : State} {a : FReg} (ha : dom (s.natF a)) (d : FReg) :
    exec (.fp34 d a) s = .next (s.setF d (toF (p34 (s.natF a)))) := by
  rw [exec, execFp34, State.guarded_one_of_dom ha]

/-- A register that holds a fixed power holds its Montgomery form, which is 0 at 0 (R12, R181). -/
theorem toF_mpow_spec (x : Nat) {e : Nat} (he : e ≠ 0) :
    (toF (mpow x e)).toNat = mont (val x ^ e % Config.p) ∧ (x % Config.p = 0 → toF (mpow x e) = 0) :=
  ⟨toNat_toF_of_lt (mont_lt _), fun hx => congrArg toF (mpow_eq_zero he hx)⟩

/-- Settles O27: the inversion procedure is the power p − 2. -/
theorem finvIsFermatPower : Obligations.FinvIsFermatPower := by
  intro d a s
  have hpow := toF_mpow_spec (s.natF a) (e := Config.p - 2) (by decide +kernel)
  rw [← invP_eq_mpow] at hpow
  exact ⟨rfl, fun ha => ⟨_, exec_finv_of_dom ha d, hpow⟩, fun _ => ⟨_, rfl⟩⟩

/-- Settles O28: the square-root procedure is the power (p+1)/4. -/
theorem fsqrtIsTheAlgorithmsPower : Obligations.FsqrtIsTheAlgorithmsPower := by
  intro d a s
  have hpow := toF_mpow_spec (s.natF a) (e := (Config.p + 1) / 4) (by decide +kernel)
  rw [← sqrtP_eq_mpow] at hpow
  exact ⟨rfl, fun ha => ⟨_, exec_fsqrt_of_dom ha d, hpow⟩, fun _ => ⟨_, rfl⟩⟩

/-- Settles O29: the chain procedure is the power (p−3)/4. -/
theorem fp34IsTheFixedPower : Obligations.Fp34IsTheFixedPower := by
  intro d a s
  have hpow := toF_mpow_spec (s.natF a) (e := (Config.p - 3) / 4) (by decide +kernel)
  rw [← p34_eq_mpow] at hpow
  exact ⟨rfl, fun ha => ⟨_, exec_fp34_of_dom ha d, hpow⟩, fun _ => ⟨_, rfl⟩⟩

/-- Settles O39: the inverse, and the inverse of the inverse, which is canonical and so in the domain. -/
theorem finvInverts : Obligations.FinvInverts := by
  intro d a s ha hne
  have hd : (s.setF d (toF (invP (s.natF a)))).natF d = invP (s.natF a) := s.natF_setF_toF d (invP_lt _)
  have hdom : dom ((s.setF d (toF (invP (s.natF a)))).natF d) := by
    rw [hd]
    exact dom_of_lt_p (invP_lt _)
  refine ⟨_, _, exec_finv_of_dom ha d, ?_, exec_finv_of_dom hdom d, ?_⟩
  · rw [toNat_toF_of_lt (invP_lt _), val_mul_val_invP hne]
  · rw [toNat_toF_of_lt (invP_lt _), hd, invP_invP]

/-- Settles O40: for u = w² the root is (w^((p+1)/4))², and its square is u. -/
theorem fsqrtOfASquareIsARoot : Obligations.FsqrtOfASquareIsARoot := by
  rintro d a s ha ⟨w, hw⟩
  refine ⟨_, exec_fsqrt_of_dom ha d, ?_⟩
  rw [toNat_toF_of_lt (sqrtP_lt _)]
  exact ⟨val_sqrtP_sq hw, _, sq_mod_eq_val_sqrtP hw⟩

/-! ### Comparisons, copies and constants (R208 to R212, R260) -/

theorem State.equalF_eq_decide (s : State) (a b : FReg) :
    s.equalF a b = decide (s.natF a % Config.p = s.natF b % Config.p) :=
  congruentP_eq_decide _ _

theorem State.equalE_eq_decide (s : State) (a b : EPair) :
    s.equalE a b = decide (s.natRe a % Config.p = s.natRe b % Config.p ∧
      s.natIm a % Config.p = s.natIm b % Config.p) := by
  rw [State.equalE, congruentP_eq_decide, congruentP_eq_decide, Bool.decide_and]

/-- Settles O30: the comparison of each command is the congruence of its operands. -/
theorem equalityCommandsWriteEq : Obligations.EqualityCommandsWriteEq := by
  refine ⟨fun a b s => ⟨rfl, ?_⟩, fun a b s => ⟨rfl, ?_⟩⟩
  · rw [exec, execFveq, s.equalF_eq_decide]
  · rw [exec, execEveq, s.equalE_eq_decide]

/-- Settles O31: the copy reads the register as a word, without its value. -/
theorem fmovCopies : Obligations.FmovCopies := fun _ _ _ => ⟨rfl, rfl⟩

/-- The constant ROM as a list, each constant with the size of an F register (R34). -/
theorem romValue_of_le {c : BitVec 8} (hc : c.toNat ≤ 4) :
    ∃ v, romValue c = some v ∧ v < 2 ^ 768 ∧
      v = [0, Config.radix % Config.p, Config.radix ^ 2 % Config.p, 1, Config.p].getD c.toNat 0 := by
  have hp : Config.p < 2 ^ 768 := by decide +kernel
  unfold romValue
  interval_cases c.toNat
  · exact ⟨_, rfl, by decide +kernel, rfl⟩
  · exact ⟨_, rfl, (Nat.mod_lt _ p_pos).trans hp, rfl⟩
  · exact ⟨_, rfl, (Nat.mod_lt _ p_pos).trans hp, by rw [← sq]; rfl⟩
  · exact ⟨_, rfl, by decide +kernel, rfl⟩
  · exact ⟨_, rfl, hp, rfl⟩

/-- Settles O32: the ROM constant of an index up to 4, and the decoder's refusal above it. -/
theorem fldcLoadsTheRom : Obligations.FldcLoadsTheRom := by
  intro d c s
  refine ⟨rfl, fun hc => ?_, fun hc => ?_⟩
  · obtain ⟨v, hrom, hlt, hv⟩ := romValue_of_le hc
    refine ⟨toF v, by simp only [exec, execFldc, hrom], ?_⟩
    rw [toNat_toF hlt, hv, two_pow_eq_radix]
  · exact (decode_eq_badOperand_iff _).2 ⟨_, (wf_eq_false_iff _).2 (.inr ⟨d, c, hc, rfl⟩), rfl⟩

end Sys2Proof.Machine
end

section
/-! PROOFS. The commands of the extension-field unit (42_extension_field.md): each coordinate written is read in Z/p,
and the norm of a nonzero pair is nonzero because −1 is no square modulo p. -/

namespace Sys2Proof.Machine

/-! ### The domain guard on pairs (R240) -/

/-- Inside the domain both coordinates are written as computed (R240). -/
theorem State.writeE_of_dom {s : State} {xs : List Nat} (h : ∀ x ∈ xs, dom x) (d : EPair) (re im : Nat) :
    s.writeE xs d re im = s.setE d (toF re) (toF im) := by
  rw [State.writeE, State.guarded_of_dom h, State.guarded_of_dom h]

theorem State.writeE_one_of_dom {s : State} {a : EPair} (hre : dom (s.natRe a)) (him : dom (s.natIm a))
    (d : EPair) (re im : Nat) : s.writeE [s.natRe a, s.natIm a] d re im = s.setE d (toF re) (toF im) :=
  State.writeE_of_dom (List.forall_mem_cons.2 ⟨hre, List.forall_mem_singleton.2 him⟩) d re im

theorem State.writeE_two_of_dom {s : State} {a b : EPair} (hare : dom (s.natRe a)) (haim : dom (s.natIm a))
    (hbre : dom (s.natRe b)) (hbim : dom (s.natIm b)) (d : EPair) (re im : Nat) :
    s.writeE [s.natRe a, s.natIm a, s.natRe b, s.natIm b] d re im = s.setE d (toF re) (toF im) :=
  State.writeE_of_dom (List.forall_mem_cons.2 ⟨hare, List.forall_mem_cons.2 ⟨haim,
    List.forall_mem_cons.2 ⟨hbre, List.forall_mem_singleton.2 hbim⟩⟩⟩) d re im

/-! ### The product (R250) -/

theorem karatsubaRe_mul_radix_add_mod {a b c d : Nat} (hb : dom b) (hd : dom d) :
    (karatsubaRe a b c d * Config.radix + b * d) % Config.p = a * c % Config.p := by
  rw [mod_eq_iff_cast_eq, Nat.cast_add, Nat.cast_mul, cast_karatsubaRe hb hd, mul_rInv_mul_radix, Nat.cast_mul,
    Nat.cast_mul, sub_add_cancel]

theorem karatsubaIm_mul_radix_mod (a b c d : Nat) :
    karatsubaIm a b c d * Config.radix % Config.p = (a * d + b * c) % Config.p := by
  rw [mod_eq_iff_cast_eq, Nat.cast_mul, cast_karatsubaIm, mul_rInv_mul_radix, Nat.cast_add, Nat.cast_mul,
    Nat.cast_mul]

theorem karatsubaRe_eq_mont {a b c d : Nat} (hb : dom b) (hd : dom d) :
    karatsubaRe a b c d = mont (val a * val c + (Config.p - val b * val d % Config.p)) := by
  refine eq_mont_of_cast_eq (karatsubaRe_lt a b c d) ?_
  rw [cast_karatsubaRe hb hd, Nat.cast_add, cast_p_sub (Nat.mod_lt _ p_pos).le, cast_mod_self, Nat.cast_mul,
    Nat.cast_mul, cast_val, cast_val, cast_val, cast_val]
  linear_combination (-(a * c - b * d : Zp) * Config.rInv) * cast_rInv_mul_radix

theorem karatsubaIm_eq_mont (a b c d : Nat) :
    karatsubaIm a b c d = mont (val a * val d + val b * val c) := by
  refine eq_mont_of_cast_eq (karatsubaIm_lt a b c d) ?_
  rw [cast_karatsubaIm, Nat.cast_add, Nat.cast_mul, Nat.cast_mul, cast_val, cast_val, cast_val, cast_val]
  linear_combination (-(a * d + b * c : Zp) * Config.rInv) * cast_rInv_mul_radix

theorem exec_emul_of_dom {s : State} {a b : EPair} (hare : dom (s.natRe a)) (haim : dom (s.natIm a))
    (hbre : dom (s.natRe b)) (hbim : dom (s.natIm b)) (d : EPair) :
    exec (.emul d a b) s = .next (s.setE d
      (toF (karatsubaRe (s.natRe a) (s.natIm a) (s.natRe b) (s.natIm b)))
      (toF (karatsubaIm (s.natRe a) (s.natIm a) (s.natRe b) (s.natIm b)))) := by
  rw [exec, execEmul, State.writeE_two_of_dom hare haim hbre hbim]

/-- Settles O33: the three-product coordinates read in Z/p as the four-product formula. -/
theorem emulMultiplies : Obligations.EmulMultiplies := by
  intro d a b s
  refine ⟨rfl, fun hare haim hbre hbim => ⟨_, _, exec_emul_of_dom hare haim hbre hbim d, ?_⟩, fun _ => ⟨_, _, rfl⟩⟩
  rw [toNat_toF_of_lt (karatsubaRe_lt _ _ _ _), toNat_toF_of_lt (karatsubaIm_lt _ _ _ _), two_pow_eq_radix]
  exact ⟨karatsubaRe_lt _ _ _ _, karatsubaIm_lt _ _ _ _, karatsubaRe_mul_radix_add_mod haim hbim,
    karatsubaIm_mul_radix_mod _ _ _ _, karatsubaRe_eq_mont haim hbim, karatsubaIm_eq_mont _ _ _ _⟩

/-! ### The square (R252) -/

/-- (a + b)(a − b) is the real part of the product of a pair by itself (R252). -/
theorem redc_add_mul_subP {a b : Nat} (hb : dom b) : redc ((a + b) * subP a b) = karatsubaRe a b a b := by
  refine eq_of_cast_eq (redc_lt _) (karatsubaRe_lt _ _ _ _) ?_
  rw [cast_redc, cast_karatsubaRe hb hb, Nat.cast_mul, Nat.cast_add, cast_subP]
  ring

/-- 2a·b is the imaginary part of the product of a pair by itself (R252). -/
theorem redc_add_self_mul (a b : Nat) : redc ((a + a) * b) = karatsubaIm a b a b := by
  refine eq_of_cast_eq (redc_lt _) (karatsubaIm_lt _ _ _ _) ?_
  rw [cast_redc, cast_karatsubaIm, Nat.cast_mul, Nat.cast_add]
  ring

theorem exec_esqr_eq_exec_emul {s : State} {a : EPair} (hre : dom (s.natRe a)) (him : dom (s.natIm a))
    (d : EPair) : exec (.esqr d a) s = exec (.emul d a a) s := by
  rw [exec_emul_of_dom hre him hre him, exec, execEsqr, State.writeE_one_of_dom hre him, redc_add_mul_subP him,
    redc_add_self_mul]

/-- Settles O34: ESQR is EMUL of the pair by itself, whose coordinates are a² − b² and ab + ba. -/
theorem esqrSquares : Obligations.EsqrSquares := by
  intro d a s
  refine ⟨rfl, fun hre him => ?_, fun _ => ⟨_, _, rfl⟩⟩
  have hmul := exec_emul_of_dom hre him hre him d
  refine ⟨_, _, (exec_esqr_eq_exec_emul hre him d).trans hmul, ?_⟩
  rw [toNat_toF_of_lt (karatsubaRe_lt _ _ _ _), toNat_toF_of_lt (karatsubaIm_lt _ _ _ _), two_pow_eq_radix]
  refine ⟨karatsubaRe_lt _ _ _ _, karatsubaIm_lt _ _ _ _, ?_, ?_, hmul⟩
  · rw [sq, sq, karatsubaRe_mul_radix_add_mod him him]
  · rw [karatsubaIm_mul_radix_mod, Nat.mul_comm (s.natIm a), ← Nat.two_mul, Nat.mul_assoc]

/-! ### The sum and the difference (R254, R256) -/

theorem exec_eadd_of_dom {s : State} {a b : EPair} (hare : dom (s.natRe a)) (haim : dom (s.natIm a))
    (hbre : dom (s.natRe b)) (hbim : dom (s.natIm b)) (d : EPair) :
    exec (.eadd d a b) s = .next (s.setE d
      (toF (addP (s.natRe a) (s.natRe b))) (toF (addP (s.natIm a) (s.natIm b)))) := by
  rw [exec, execEadd, State.writeE_two_of_dom hare haim hbre hbim]

theorem exec_esub_of_dom {s : State} {a b : EPair} (hare : dom (s.natRe a)) (haim : dom (s.natIm a))
    (hbre : dom (s.natRe b)) (hbim : dom (s.natIm b)) (d : EPair) :
    exec (.esub d a b) s = .next (s.setE d
      (toF (subP (s.natRe a) (s.natRe b))) (toF (subP (s.natIm a) (s.natIm b)))) := by
  rw [exec, execEsub, State.writeE_two_of_dom hare haim hbre hbim]

/-- Settles O35: each coordinate is the reduced sum (difference) of the prime-field unit. -/
theorem eaddEsubAreCoordinatewise : Obligations.EaddEsubAreCoordinatewise := by
  intro d a b s
  refine ⟨rfl, fun hare haim hbre hbim => ⟨_, _, exec_eadd_of_dom hare haim hbre hbim d, ?_⟩, fun _ => ⟨_, _, rfl⟩,
    rfl, fun hare haim hbre hbim => ⟨_, _, exec_esub_of_dom hare haim hbre hbim d, ?_⟩, fun _ => ⟨_, _, rfl⟩⟩
  · rw [toNat_toF_of_lt (addP_lt _ _), toNat_toF_of_lt (addP_lt _ _)]
    exact ⟨rfl, rfl⟩
  · rw [toNat_toF_of_lt (subP_lt _ _), toNat_toF_of_lt (subP_lt _ _)]
    exact ⟨coe_subP _ _, coe_subP _ _⟩

/-! ### The inverse (R258) -/

theorem val_eq_zero_iff (x : Nat) : val x = 0 ↔ x % Config.p = 0 := by
  refine ⟨fun h => ?_, fun h => ?_⟩
  · rw [← mont_val, h, mont, Nat.zero_mul, Nat.zero_mod]
  · rw [val, Nat.mul_mod, h, Nat.zero_mul, Nat.zero_mod]

theorem val_mmul (x y : Nat) : val (mmul x y) = val x * val y % Config.p := by
  rw [mmul_eq_mont, val_mont]

/-- A product with a factor congruent to 0 is 0 (R241). -/
theorem mmul_eq_zero_of_val_eq_zero {x : Nat} (hx : val x = 0) (y : Nat) : mmul x y = 0 := by
  rw [mmul_eq_mont, hx, Nat.zero_mul, mont, Nat.zero_mul, Nat.zero_mod]

theorem val_mpow (x e : Nat) : val (mpow x e) = val x ^ e % Config.p := by
  rw [mpow_eq_mont_pow, val_mont]

/-- The logical value of 0 − x, the conjugate's imaginary coordinate (R258). -/
theorem val_subP_zero (x : Nat) : val (subP 0 x) = (Config.p - val x) % Config.p := by
  rw [subP_eq_mont, val_mont, (val_eq_zero_iff 0).2 (Nat.zero_mod _), Nat.zero_add]

/-- The logical value of the norm is α² + β² (R258). -/
theorem val_normP (a b : Nat) : val (normP a b) = (val a ^ 2 + val b ^ 2) % Config.p := by
  refine eq_of_cast_eq (val_lt _) (Nat.mod_lt _ p_pos) ?_
  rw [cast_val, cast_normP, mul_radix_mul_rInv, cast_mod_self, Nat.cast_add, Nat.cast_pow, Nat.cast_pow, cast_val,
    cast_val]

/-- The inverse of the norm is its power p − 2 (R202, R258). -/
theorem val_invP_normP (a b : Nat) :
    val (invP (normP a b)) = (val a ^ 2 + val b ^ 2) ^ (Config.p - 2) % Config.p := by
  rw [invP_eq_mpow, val_mpow, val_normP, ← Nat.pow_mod]

theorem exec_einv_of_dom {s : State} {a : EPair} (hre : dom (s.natRe a)) (him : dom (s.natIm a)) (d : EPair) :
    exec (.einv d a) s = .next (s.setE d
      (toF (mmul (s.natRe a) (invP (normP (s.natRe a) (s.natIm a)))))
      (toF (mmul (subP 0 (s.natIm a)) (invP (normP (s.natRe a) (s.natIm a)))))) := by
  rw [exec, execEinv, State.writeE_one_of_dom hre him]

/-- Settles O36: the conjugate's coordinates, each times the power p − 2 of the norm; the conjugate of 0 is 0. -/
theorem einvIsNormInversion : Obligations.EinvIsNormInversion := by
  intro d a s
  refine ⟨rfl, fun hre him => ⟨_, _, exec_einv_of_dom hre him d, ?_, ?_, fun hre0 him0 => ⟨?_, ?_⟩⟩,
    fun _ => ⟨_, _, rfl⟩⟩
  · rw [toNat_toF_of_lt (mmul_lt _ _), mmul_eq_mont, val_invP_normP]
  · rw [toNat_toF_of_lt (mmul_lt _ _), mmul_eq_mont, val_invP_normP, val_subP_zero, ← mont_mod, Nat.mod_mul_mod,
      mont_mod]
  · exact congrArg toF (mmul_eq_zero_of_val_eq_zero ((val_eq_zero_iff _).2 hre0) _)
  · have hconj : val (subP 0 (s.natIm a)) = 0 := by
      rw [val_subP_zero, (val_eq_zero_iff _).2 him0, Nat.sub_zero, Nat.mod_self]
    exact congrArg toF (mmul_eq_zero_of_val_eq_zero hconj _)

/-- A sum of two squares vanishes in Z/p only at 0, as p is 3 modulo 4 (R2, R241). -/
theorem eq_zero_of_sq_add_sq_eq_zero {x y : Zp} (h : x ^ 2 + y ^ 2 = 0) : x = 0 ∧ y = 0 := by
  have := fact_p_prime
  have hy : y = 0 := by
    by_contra hne
    exact ZMod.mod_four_ne_three_of_sq_eq_neg_sq' hne (eq_neg_of_add_eq_zero_left h) p_mod_four
  rw [hy, zero_pow two_ne_zero, add_zero] at h
  exact ⟨sq_eq_zero_iff.1 h, hy⟩

theorem cast_val_eq_zero_iff (x : Nat) : (val x : Zp) = 0 ↔ x % Config.p = 0 := by
  rw [← val_eq_zero_iff, ← Nat.cast_zero, ← mod_eq_iff_cast_eq, Nat.mod_eq_of_lt (val_lt x), Nat.zero_mod]

/-- The norm of a nonzero pair is nonzero (R241). -/
theorem val_normP_ne_zero {a b : Nat} (h : ¬ (a % Config.p = 0 ∧ b % Config.p = 0)) : val (normP a b) ≠ 0 := by
  intro hnorm
  have hsum : (val a : Zp) ^ 2 + (val b : Zp) ^ 2 = 0 := by
    rw [← Nat.cast_pow, ← Nat.cast_pow, ← Nat.cast_add, ← cast_mod_self, ← val_normP, hnorm, Nat.cast_zero]
  obtain ⟨ha, hb⟩ := eq_zero_of_sq_add_sq_eq_zero hsum
  exact h ⟨(cast_val_eq_zero_iff a).1 ha, (cast_val_eq_zero_iff b).1 hb⟩

/-- The norm of a nonzero pair times its inverse is 1 in Z/p (R241). -/
theorem cast_norm_mul_val_invP_normP {a b : Nat} (h : ¬ (a % Config.p = 0 ∧ b % Config.p = 0)) :
    ((val a : Zp) ^ 2 + (val b : Zp) ^ 2) * val (invP (normP a b)) = 1 := by
  have hinv := congrArg (Nat.cast : Nat → Zp) (val_mul_val_invP (val_normP_ne_zero h))
  rwa [cast_mod_self, Nat.cast_mul, val_normP, cast_mod_self, Nat.cast_add, Nat.cast_pow, Nat.cast_pow,
    Nat.cast_one] at hinv

theorem cast_val_mmul (x y : Nat) : ((val (mmul x y) : Nat) : Zp) = val x * val y := by
  rw [val_mmul, cast_mod_self, Nat.cast_mul]

/-- The imaginary coordinate that EINV writes is −β times the inverse of the norm (R258). -/
theorem cast_val_mmul_subP_zero (x y : Nat) : ((val (mmul (subP 0 x) y) : Nat) : Zp) = -val x * val y := by
  rw [cast_val_mmul, val_subP_zero, cast_mod_self, cast_p_sub (val_lt x).le]

/-- Settles O41: with ι the inverse of the norm, α·αι − β·(−βι) = 1 and α·(−βι) + β·αι = 0. -/
theorem einvInverts : Obligations.EinvInverts := by
  intro d a s hre him hne
  refine ⟨_, _, exec_einv_of_dom hre him d, ?_⟩
  have hinv := cast_norm_mul_val_invP_normP hne
  rw [toNat_toF_of_lt (mmul_lt _ _), toNat_toF_of_lt (mmul_lt _ _)]
  constructor
  · rw [mod_eq_iff_cast_eq, Nat.cast_mul, Nat.cast_add, Nat.cast_one, Nat.cast_mul, cast_val_mmul,
      cast_val_mmul_subP_zero]
    linear_combination hinv
  · refine ((mod_eq_iff_cast_eq _ 0).2 ?_).trans (Nat.zero_mod _)
    rw [Nat.cast_add, Nat.cast_mul, Nat.cast_mul, cast_val_mmul_subP_zero, cast_val_mmul, Nat.cast_zero]
    ring

end Sys2Proof.Machine
end

section
/-! PROOFS. Rejections, the interrupt level, and why no accepted command stops the machine (60_exceptions.md). -/

namespace Sys2Proof.Machine

/-! ### No step stops (R282, R284, R290) -/

/-- The unit's turn completes when the command in flight, if there is one, is well formed (R50, R108). -/
theorem exists_unitStep_next {s : State} (hwf : ∀ i, s.inflight = some i → i.wf = true) :
    ∃ t, unitStep s = .next t := by
  cases hi : s.inflight with
  | none => exact ⟨s, unitStep_of_idle hi⟩
  | some i =>
    obtain ⟨t, hexec⟩ := (exec_next_iff_wf i s).2 (hwf i hi)
    exact ⟨t.finish, by rw [unitStep_of_inflight hi, hexec]⟩

/-- An access and a reset always answer a next state; only the unit's turn looks at the command in flight. -/
theorem exists_eventStep_next (e : HostEvent) {s : State} (hwf : ∀ i, s.inflight = some i → i.wf = true) :
    ∃ t, eventStep e s = .next t := by
  cases e with
  | read w o => exact ⟨s.hostRead w o, rfl⟩
  | write w o v => exact ⟨s.hostWrite w o v, rfl⟩
  | hardReset => exact ⟨s.resetUnit, rfl⟩
  | unitTurn => exact exists_unitStep_next hwf

/-- Settles O13: of the invariant the step needs only that the command in flight is well formed. -/
theorem stepNeverStops : Obligations.StepNeverStops := by
  rintro s ⟨-, -, -, hwf⟩
  cases hs : s.inputs with
  | nil =>
    rw [step_of_inputs_nil hs]
    exact exists_unitStep_next (s := s.advance) hwf
  | cons e rest =>
    rw [step_of_inputs_cons hs]
    exact exists_eventStep_next e (s := s.advance.withInputs rest) hwf

/-! ### The interrupt level (R300, R302) -/

theorem State.irq_iff (s : State) : s.irq = true ↔ s.ie = true ∧ s.done = true := Bool.and_eq_true_iff

theorem State.irq_of_done {s : State} (h : s.done = true) : s.irq = s.ie := by
  rw [State.irq, h, Bool.and_true]

theorem State.irq_of_not_done {s : State} (h : s.done = false) : s.irq = false := by
  rw [State.irq, h, Bool.and_false]

theorem State.irq_of_not_ie {s : State} (h : s.ie = false) : s.irq = false := by
  rw [State.irq, h, Bool.false_and]

/-- A rejection that is not the decoder's keeps IE and DONE, and so the level (R286, R300). -/
theorem State.irq_reject_ofAccess (s : State) {c : CauseCode} (hc : c.isDecode = false) (o : Offset) :
    (s.reject (Cause.ofAccess c o)).irq = s.irq := by
  rw [s.reject_ofAccess hc]
  rfl

/-- A STATUS write with bit 1 clears DONE (R42). -/
theorem State.irq_writeStatus {v : Limb} (s : State) (h : v.getLsbD 1 = true) : (s.writeStatus v).irq = false :=
  irq_of_not_done (by rw [writeStatus_done, h, Bool.not_true, Bool.and_false])

/-- A write to CTRL with SRST is a soft reset (R48). -/
theorem State.writeCtrl_of_srst (s : State) {v : Limb} (h : v.getLsbD 1 = true) : s.writeCtrl v = s.resetUnit :=
  if_pos h

theorem State.irq_writeCtrl_of_srst {v : Limb} (s : State) (h : v.getLsbD 1 = true) :
    (s.writeCtrl v).irq = false := by
  rw [s.writeCtrl_of_srst h]
  rfl

/-- A CTRL write with bit 0 = 0 lowers the level, by IE <- 0 or by the soft reset that bit 1 asks for (R48). -/
theorem State.irq_writeCtrl_of_not_ie {v : Limb} (s : State) (h : v.getLsbD 0 = false) :
    (s.writeCtrl v).irq = false := by
  cases hsrst : v.getLsbD 1 with
  | true => exact s.irq_writeCtrl_of_srst hsrst
  | false => exact irq_of_not_ie (by rw [s.writeCtrl_of_not_srst hsrst, h])

/-- Settles O59: each event by what it does to IE and to DONE. -/
theorem irqIsEnableAndDone : Obligations.IrqIsEnableAndDone := by
  intro s i v o e cw
  exact ⟨s.irq_iff, State.irq_of_done s.finish_done, State.irq_of_done (s.done_reject_ofCommand e cw),
    State.irq_of_not_done (s.accept_done i), s.irq_writeStatus, s.irq_writeCtrl_of_not_ie,
    fun h => by rw [s.writeCtrl_of_not_srst h], s.irq_writeCtrl_of_srst,
    s.irq_reject_ofAccess rfl o, s.irq_reject_ofAccess rfl o⟩

/-! ### The effect of a rejection (R286) -/

/-- The decode causes are causes 1 to 3 of R282. -/
theorem CauseCode.isDecode_iff (c : CauseCode) :
    c.isDecode = true ↔ c = .illegalOpcode ∨ c = .reservedField ∨ c = .badOperand := by
  cases c <;> decide

/-- A bad read is rejected with BAD_ACCESS and answered with a bus error (R73). -/
theorem State.hostRead_of_illegal {w : Width} {o : Offset} (s : State) (h : legalAccess w o = false) :
    s.hostRead w o = (s.reject (Cause.ofAccess .badAccess o)).respond (.readError 0) :=
  if_neg (Bool.eq_false_iff.1 h)

/-- Settles O10: DONE is set exactly by the codes that belong to the decoder. -/
theorem rejectionEffect : Obligations.RejectionEffect := by
  intro s c
  refine ⟨?_, rfl, fun e cw => ⟨rfl, rfl⟩, fun o => ⟨rfl, rfl⟩,
    fun w o hbad => s.hostRead_of_illegal (legalAccess_eq_false hbad)⟩
  have hdone : (s.done || c.code.isDecode) =
      if c.code = .illegalOpcode ∨ c.code = .reservedField ∨ c.code = .badOperand then true else s.done := by
    simp only [← CauseCode.isDecode_iff]
    cases c.code.isDecode
    · exact Bool.or_false _
    · exact Bool.or_true _
  rw [State.reject, hdone]

end Sys2Proof.Machine
end

section
/-! PROOFS. The shell invariant (R340): it holds at reset, every operation on the shell keeps it under the guard the
unit gives it, and so does every step. -/

namespace Sys2Proof.Machine

/-! ### The causes the unit records (R44, R282, R286) -/

theorem Cause.zero_ok : Cause.zero.ok := ⟨fun _ => rfl, fun _ => rfl, fun _ => rfl⟩

theorem isDecode_causeOfDecode (e : DecodeError) : (causeOfDecode e).isDecode = true := by
  cases e <;> rfl

theorem CauseCode.ne_noCause_of_isDecode {c : CauseCode} (h : c.isDecode = true) : c ≠ .noCause := by
  rintro rfl
  exact Bool.false_ne_true h

/-- A decode rejection records the command word and no offset (R286). -/
theorem Cause.ofCommand_ok (e : DecodeError) (cw : CmdWord) : (Cause.ofCommand e cw).ok :=
  ⟨fun h => absurd h (CauseCode.ne_noCause_of_isDecode (isDecode_causeOfDecode e)), fun _ => rfl,
    fun h => absurd ((isDecode_causeOfDecode e).symm.trans h) Bool.noConfusion⟩

/-- An access rejection records the offset and no command word (R286). -/
theorem Cause.ofAccess_ok {c : CauseCode} (hne : c ≠ .noCause) (hc : c.isDecode = false) (o : Offset) :
    (Cause.ofAccess c o).ok :=
  ⟨fun h => absurd h hne, fun h => absurd (hc.symm.trans h) Bool.false_ne_true, fun _ => rfl⟩

/-! ### What the invariant does not read -/

@[simp] theorem inv_setF {s : State} (i : FReg) (v : FWord) : Inv (s.setF i v) ↔ Inv s := Iff.rfl
@[simp] theorem inv_setD {s : State} (i : DReg) (v : DWord) : Inv (s.setD i v) ↔ Inv s := Iff.rfl
@[simp] theorem inv_setImm {s : State} (v : Limb) : Inv (s.setImm v) ↔ Inv s := Iff.rfl
@[simp] theorem inv_advance {s : State} : Inv s.advance ↔ Inv s := Iff.rfl
@[simp] theorem inv_withInputs {s : State} (es : List HostEvent) : Inv (s.withInputs es) ↔ Inv s := Iff.rfl
@[simp] theorem inv_respond {s : State} (r : BusResponse) : Inv (s.respond r) ↔ Inv s := Iff.rfl

/-- The invariant speaks of the shell alone. -/
theorem SameShell.inv {s t : State} (hst : SameShell s t) (h : Inv s) : Inv t := by
  obtain ⟨hdone, herr, hcause, -, -, hslot, -, -, -⟩ := hst
  rwa [Inv, State.busy, hdone, herr, hcause, hslot]

/-! ### The operations on the shell -/

/-- Settles O11: no command is in flight, ERR is 0 and CAUSE is zero. -/
theorem invariantAtReset : Obligations.InvariantAtReset :=
  ⟨fun _ => rfl, ⟨fun _ => rfl, fun _ => rfl⟩, Cause.zero_ok, fun _ h => nomatch h⟩

/-- Both resets bring the shell to its state after reset (R322). -/
theorem inv_resetUnit (s : State) : Inv s.resetUnit := invariantAtReset

/-- The acceptance of a command the decoder gives clears DONE (R120). -/
theorem Inv.accept {s : State} {i : Instr} (h : Inv s) (hi : i.wf = true) : Inv (s.accept i) := by
  obtain ⟨-, herr, hok, -⟩ := h
  exact ⟨fun _ => rfl, herr, hok, fun j hj => Option.some.inj hj ▸ hi⟩

/-- The completion step empties the command slot, so DONE may be 1 (R50). -/
theorem Inv.finish {s : State} (h : Inv s) : Inv s.finish := by
  obtain ⟨-, herr, hok, -⟩ := h
  exact ⟨fun hbusy => absurd hbusy Bool.false_ne_true, herr, hok, fun _ hj => nomatch hj⟩

/-- A rejection sets ERR with a nonzero cause, the first or the new one; it may set DONE only while BUSY = 0
(R286). -/
theorem Inv.reject {s : State} {c : Cause} (h : Inv s) (hne : c.code ≠ .noCause) (hok : c.ok)
    (hbusy : s.busy = true → c.code.isDecode = false) : Inv (s.reject c) := by
  obtain ⟨hdone, herr, hcause, hwf⟩ := h
  have hkept : (s.reject c).cause.code ≠ .noCause ∧ (s.reject c).cause.ok := by
    rw [State.reject_cause]
    split
    case isTrue hs => exact ⟨fun hcode => Bool.false_ne_true ((herr.2 hcode).symm.trans hs), hcause⟩
    case isFalse => exact ⟨hne, hok⟩
  refine ⟨fun hb => ?_, ⟨fun hf => absurd hf.symm Bool.false_ne_true, fun hcode => absurd hcode hkept.1⟩,
    hkept.2, hwf⟩
  rw [State.reject_done, hdone hb, hbusy hb, Bool.false_or]

/-- A BUSY_WRITE or BAD_ACCESS rejection leaves DONE, at any time (R286). -/
theorem Inv.reject_ofAccess {s : State} {c : CauseCode} (h : Inv s) (hne : c ≠ .noCause) (hc : c.isDecode = false)
    (o : Offset) : Inv (s.reject (Cause.ofAccess c o)) :=
  h.reject hne (Cause.ofAccess_ok hne hc o) fun _ => hc

/-- A decode rejection is given by an idle unit alone (R120). -/
theorem Inv.reject_ofCommand {s : State} (h : Inv s) (hidle : s.busy = false) (e : DecodeError) (cw : CmdWord) :
    Inv (s.reject (Cause.ofCommand e cw)) :=
  h.reject (CauseCode.ne_noCause_of_isDecode (isDecode_causeOfDecode e)) (Cause.ofCommand_ok e cw)
    fun hbusy => absurd (hidle.symm.trans hbusy) Bool.false_ne_true

/-- A STATUS write clears ERR and CAUSE together, and can only clear DONE (R42, R292). -/
theorem Inv.writeStatus {s : State} (h : Inv s) (v : Limb) : Inv (s.writeStatus v) := by
  obtain ⟨hdone, herr, hok, hwf⟩ := h
  refine ⟨fun hbusy => ?_, ?_, ?_, hwf⟩
  · rw [State.writeStatus_done, hdone hbusy, Bool.false_and]
  · rw [State.writeStatus_err, State.writeStatus_cause]
    cases v.getLsbD 3 with
    | false => simpa using herr
    | true => simp [Cause.zero]
  · rw [State.writeStatus_cause]
    split
    · exact Cause.zero_ok
    · exact hok

/-- A CTRL write resets the unit or writes IE, which is no part of the invariant (R48, R322). -/
theorem Inv.writeCtrl {s : State} (h : Inv s) (v : Limb) : Inv (s.writeCtrl v) := by
  cases hsrst : v.getLsbD 1 with
  | true => rw [s.writeCtrl_of_srst hsrst]; exact inv_resetUnit s
  | false => rw [s.writeCtrl_of_not_srst hsrst]; exact h

/-- A CMD write accepts a well-formed command, or rejects: with a decode cause only while BUSY = 0 (R120). -/
theorem Inv.writeCmd {s : State} (h : Inv s) (v : Limb) : Inv (s.writeCmd v) := by
  rcases writeCmd_cases s v with ⟨-, heq⟩ | ⟨-, i, hdec, heq⟩ | ⟨hidle, e, -, heq⟩ <;> rw [heq]
  · exact h.reject_ofAccess CauseCode.noConfusion rfl _
  · exact h.accept (acceptedWriteIsAnEncoding v i hdec).1
  · exact h.reject_ofCommand hidle e _

/-! ### The host's accesses and the step -/

theorem Inv.writeWindow {s : State} (h : Inv s) (o : Offset) (v : Limb) : Inv (s.writeWindow o v) := by
  rcases writeWindow_cases s o v with ⟨-, heq⟩ | ⟨i, x, -, heq⟩ | ⟨i, x, -, heq⟩ | ⟨-, heq⟩ | heq | heq | heq | heq <;>
    rw [heq]
  · exact h.reject_ofAccess CauseCode.noConfusion rfl o
  · exact (inv_setF i x).2 h
  · exact (inv_setD i x).2 h
  · exact (inv_setImm v).2 h
  · exact h.writeCmd v
  · exact h.writeStatus v
  · exact h.writeCtrl v
  · exact h

theorem Inv.reject_badAccess {s : State} (h : Inv s) (o : Offset) : Inv (s.reject (Cause.ofAccess .badAccess o)) :=
  h.reject_ofAccess CauseCode.noConfusion rfl o

theorem Inv.hostRead {s : State} (h : Inv s) (w : Width) (o : Offset) : Inv (s.hostRead w o) := by
  rw [State.hostRead]
  split
  · exact (inv_respond _).2 h
  · exact (inv_respond _).2 (h.reject_badAccess o)

theorem Inv.hostWrite {s : State} (h : Inv s) (w : Width) (o : Offset) (v : Limb) : Inv (s.hostWrite w o v) := by
  rw [State.hostWrite]
  split
  · exact (inv_respond _).2 (h.writeWindow o v)
  · exact (inv_respond _).2 (h.reject_badAccess o)

/-- The command in flight leaves the shell as it was, and the completion step then frees the slot (R50). -/
theorem Inv.unitStep {s t : State} (h : Inv s) (hturn : unitStep s = .next t) : Inv t := by
  rcases unitStep_cases hturn with ⟨-, rfl⟩ | ⟨i, u, -, hexec, rfl⟩
  · exact h
  · exact ((exec_sameShell hexec).inv h).finish

/-- Settles O12: by cases on the next event; the tick and the events to come are no part of the invariant. -/
theorem stepKeepsInvariant : Obligations.StepKeepsInvariant := by
  intro s t h hstep
  have hnext (rest : List HostEvent) : Inv (s.advance.withInputs rest) :=
    (inv_withInputs rest).2 (inv_advance.2 h)
  rcases step_cases hstep with ⟨-, hturn⟩ | ⟨rest, -, hturn⟩ | ⟨w, o, rest, -, rfl⟩ | ⟨w, o, v, rest, -, rfl⟩ |
    ⟨rest, -, rfl⟩
  · exact (inv_advance.2 h).unitStep hturn
  · exact (hnext rest).unitStep hturn
  · exact (hnext rest).hostRead w o
  · exact (hnext rest).hostWrite w o v
  · exact inv_resetUnit _

end Sys2Proof.Machine
end

section
/-! PROOFS. Write sets (R337) and the field-operand domain (R332): what a command does not write is as before, and
what it does write is in the domain again. -/

namespace Sys2Proof.Machine

/-! ### The frame of a command (R337) -/

/-- A window word that shows no changed register is as before: it is read from the registers and the shell. -/
theorem windowWord_eq_of_not_shows {fs : List FReg} {ds : List DReg} {eqToo : Bool} {s t : State}
    (hf : ∀ i, i ∉ fs → t.getF i = s.getF i) (hd : ∀ i, i ∉ ds → t.getD i = s.getD i)
    (heq : eqToo = false → t.eq = s.eq) (hshell : SameShell s t) {r : WindowReg} (hr : ¬ shows fs ds eqToo r) :
    t.windowWord r = s.windowWord r := by
  obtain ⟨hdone, herr, hcause, himm, hie, hslot, -, -, -⟩ := hshell
  cases r with
  | fLimb i j => exact congrArg (limbOf · j.val) (hf i hr)
  | dLimb i j => exact congrArg (limbOf · j.val) (hd i hr)
  | status =>
    simp only [State.windowWord, State.statusWord, State.busy, herr, heq (Bool.eq_false_iff.2 hr), hdone, hslot]
  | cause => exact congrArg Cause.word hcause
  | imm => exact himm
  | ctrl => simp only [State.windowWord, State.ctrlWord, hie]
  | cmd | ident | reserved => rfl

/-- A frame on the registers and the shell is a frame on the bytes of the window too (R72). -/
theorem FrameOf.of_registers {fs : List FReg} {ds : List DReg} {eqToo : Bool} {s t : State}
    (hf : ∀ i, i ∉ fs → t.getF i = s.getF i) (hd : ∀ i, i ∉ ds → t.getD i = s.getD i)
    (heq : eqToo = false → t.eq = s.eq) (hshell : SameShell s t) : FrameOf fs ds eqToo s t :=
  ⟨hf, hd, heq, hshell, fun o hr => by
    rw [State.windowByte, State.windowByte, windowWord_eq_of_not_shows hf hd heq hshell hr]⟩

theorem exec_getF_of_not_mem {i : Instr} {s t : State} (h : exec i s = .next t) {r : FReg} (hr : r ∉ writesF i) :
    t.getF r = s.getF r := by
  rcases exec_cases h with ⟨d, v, hw, -, -, rfl⟩ | ⟨d, v, -, -, -, rfl⟩ | ⟨d, a, v, rfl, rfl⟩ |
    ⟨d, re, im, hw, -, -, rfl⟩ | ⟨b, -, -, -, rfl⟩
  · rw [hw, List.mem_singleton] at hr
    exact s.getF_setF_ne v hr
  · rfl
  · exact State.getF_setF_ne _ v (mt List.mem_singleton.2 hr)
  · rw [hw, List.mem_pair, not_or] at hr
    rw [State.getF_setE, if_neg hr.2, if_neg hr.1]
  · rfl

theorem exec_getD_of_not_mem {i : Instr} {s t : State} (h : exec i s = .next t) {r : DReg} (hr : r ∉ writesD i) :
    t.getD r = s.getD r := by
  rcases exec_cases h with ⟨d, v, -, -, -, rfl⟩ | ⟨d, v, -, hw, -, rfl⟩ | ⟨d, a, v, rfl, rfl⟩ |
    ⟨d, re, im, -, -, -, rfl⟩ | ⟨b, -, -, -, rfl⟩
  · rfl
  · rw [hw, List.mem_singleton] at hr
    exact s.getD_setD_ne v hr
  · exact s.getD_setD_ne 0 (mt List.mem_singleton.2 hr)
  · rfl
  · rfl

theorem exec_eq_of_not_writesEq {i : Instr} {s t : State} (h : exec i s = .next t) (hi : writesEq i = false) :
    t.eq = s.eq :=
  (sameButOperands_iff.2 (exec_maskOperands hi h)).1

/-- Settles O46: the frame register by register from the forms of a command's writes; the unit's turn then finishes
the command. -/
theorem commandsWriteOnlyTheirWriteSet : Obligations.CommandsWriteOnlyTheirWriteSet := by
  refine fun i s t h => ⟨FrameOf.of_registers (fun r => exec_getF_of_not_mem h) (fun r => exec_getD_of_not_mem h)
    (exec_eq_of_not_writesEq h) (exec_sameShell h), fun hslot => ?_⟩
  rw [unitStep_of_inflight hslot, h]
  rfl

/-! ### The field-operand domain (R332) -/

/-- The values of the constant ROM are at most p (R34). -/
theorem romValue_le_p {c : BitVec 8} {v : Nat} (h : romValue c = some v) : v ≤ Config.p := by
  unfold romValue at h
  split at h
  case h_6 => exact nomatch h
  all_goals obtain rfl := Option.some.inj h
  · exact Nat.zero_le _
  · exact (Nat.mod_lt _ p_pos).le
  · exact (Nat.mod_lt _ p_pos).le
  · exact p_pos
  · exact Nat.le_refl _

theorem dom_of_le_p {v : Nat} (h : v ≤ Config.p) : dom v := by
  have := p_pos
  unfold dom
  omega

theorem lt_two_pow_of_dom {v : Nat} (h : dom v) : v < 2 ^ 768 :=
  Nat.lt_trans h (Nat.lt_trans two_p_lt (by decide +kernel))

/-- A domain value written to a register is a domain value of that register. -/
theorem State.dom_natF_setF_toF (s : State) (d : FReg) {v : Nat} (hv : dom v) : dom ((s.setF d (toF v)).natF d) := by
  rwa [State.natF_setF, if_pos rfl, toNat_toF (lt_two_pow_of_dom hv)]

/-- The commands that do not compute a field element write domain values, but for ADDL and an out-of-range REDC. -/
theorem exec_dom_of_not_computesField {i : Instr} {s t : State} (hdom : AllInDomain s) (hi : computesField i = false)
    (haddl : ∀ d a b, i ≠ .addl d a b) (hredc : ∀ d a, i = .redc d a → s.natD a < Config.p * 2 ^ 768)
    (h : exec i s = .next t) : ∀ r ∈ writesF i, dom (t.natF r) := by
  cases i with
  | redc d a =>
    have hlt := hredc d a rfl
    rw [two_pow_eq_radix] at hlt
    rw [exec_redc_of_lt hlt] at h
    cases h
    exact List.forall_mem_singleton.2 (State.dom_natF_setF_toF _ d (dom_of_lt_p (redc_lt _)))
  | addl d a b => exact absurd rfl (haddl d a b)
  | sred d =>
    cases h
    exact List.forall_mem_singleton.2
      (s.dom_natF_setF_toF d ((strongReduce_le (s.natF d)).trans_lt (hdom d)))
  | fmov d a =>
    cases h
    refine List.forall_mem_singleton.2 ?_
    rw [State.natF_setF, if_pos rfl]
    exact hdom a
  | fldc d c =>
    simp only [exec, execFldc] at h
    split at h
    case h_1 v hrom =>
      cases h
      exact List.forall_mem_singleton.2 (s.dom_natF_setF_toF d (dom_of_le_p (romValue_le_p hrom)))
    case h_2 => cases h
  | mulw _ _ _ | daddl _ _ _ | dsubl _ _ _ | fveq _ _ | eveq _ _ => exact fun _ hr => absurd hr List.not_mem_nil
  | _ => cases hi

/-- A command that computes a field element from domain operands writes canonical values, which are in the domain. -/
theorem exec_dom_of_computesField {i : Instr} {s t : State} (hdom : AllInDomain s) (hi : computesField i = true)
    (h : exec i s = .next t) : ∀ r ∈ writesF i, dom (t.natF r) := by
  obtain ⟨t', ht', hcanon⟩ :=
    fieldResultsAreCanonical i s ((exec_next_iff_wf i s).1 ⟨t, h⟩) hi fun r _ => hdom r
  cases ht'.symm.trans h
  exact fun r hr => dom_of_lt_p (hcanon r hr)

/-- Settles O45: a register outside the write set is unchanged, and one inside it holds a domain value. -/
theorem fieldDomainIsKept : Obligations.FieldDomainIsKept := by
  intro i s t hdom haddl hredc h r
  by_cases hr : r ∈ writesF i
  · cases hi : computesField i with
    | true => exact exec_dom_of_computesField hdom hi h r hr
    | false => exact exec_dom_of_not_computesField hdom hi haddl hredc h r hr
  · rw [State.natF, exec_getF_of_not_mem h hr]
    exact hdom r

end Sys2Proof.Machine
end

section
/-! PROOFS. Reset (R320, R322), and a command whose destination is one of its sources (R336). -/

namespace Sys2Proof.Machine

/-! ### Hard and soft reset (R320, R322) -/

/-- Every row of R320 is at its reset value, in the registers and in the words that show them. -/
def State.AtReset (t : State) : Prop :=
  (∀ i, t.getF i = 0) ∧ (∀ i, t.getD i = 0) ∧ t.eq = false ∧ t.busy = false ∧ t.done = false ∧ t.err = false ∧
    t.cause = { code := .noCause, offset := 0, cmdWord := 0 } ∧ t.cause.word = 0 ∧ t.imm = 0 ∧ t.ie = false ∧
    t.inflight = none ∧ t.irq = false ∧ t.statusWord = 0

theorem Cause.word_zero : Cause.zero.word = 0 := by decide

theorem State.statusWord_reset : State.reset.statusWord = 0 := by decide

theorem State.atReset_resetUnit (s : State) : s.resetUnit.AtReset :=
  ⟨getF_reset, getD_reset, rfl, rfl, rfl, rfl, rfl, Cause.word_zero, rfl, rfl, rfl, rfl,
    statusWord_reset⟩

/-- The answer to the write that asked for a soft reset changes no register of the unit. -/
theorem State.atReset_respond {s : State} (r : BusResponse) : (s.respond r).AtReset ↔ s.AtReset := Iff.rfl

/-- A CTRL write with SRST is a soft reset, whatever the other bits and whether or not a command is in flight
(R48, R322). -/
theorem State.hostWrite_srst (s : State) {v : Limb} (h : v.getLsbD 1 = true) :
    s.hostWrite .w64 0xF20 v = s.resetUnit.respond .writeAck := by
  rw [s.hostWrite_ctrl, s.writeCtrl_of_srst h]

/-- Settles O58: both events run the same reset of the unit; a host event always has a next state. -/
theorem hardAndSoftReset : Obligations.HardAndSoftReset := by
  refine ⟨fun s t rest v hevent hstep => ?_, fun s rest v hevent => ?_, fun s => ⟨rfl, s.getLsbD_ctrlWord 1⟩⟩
  · change t.AtReset
    rcases hevent with hrst | ⟨hsrst, hwrite⟩
    · cases (step_of_inputs_cons hrst).symm.trans hstep
      exact State.atReset_resetUnit _
    · cases (step_of_inputs_cons hwrite).symm.trans hstep
      rw [State.hostWrite_srst _ hsrst]
      exact (State.atReset_respond _).2 (State.atReset_resetUnit _)
  · rcases hevent with hrst | hwrite
    · exact ⟨_, step_of_inputs_cons hrst⟩
    · exact ⟨_, step_of_inputs_cons hwrite⟩

/-! ### Aliased destinations (R336) -/

/-- FPOW2K with k ≥ 1 writes one value, whichever register is its destination (R196). -/
theorem exec_fpow2k_of_ne_zero {k : BitVec 8} (hk : k ≠ 0) (d a : FReg) (s : State) :
    exec (.fpow2k d a k) s = .next (s.setF d (s.guarded [s.natF a] 0 (squareTimes k.toNat (s.natF a)))) :=
  if_neg hk

/-- Settles O47: every meaning computes its value from the state alone and names its destination only in the write. -/
theorem aliasedDestinationGivesTheSameResult : Obligations.AliasedDestinationGivesTheSameResult := by
  intro s
  refine ⟨?redc, ?addl, ?daddl, ?dsubl, ?fmul, ?fsqr, ?fadd, ?fsub, ?finv, ?fsqrt, ?fp34, ?fmov, ?emul, ?esqr, ?eadd,
    ?esub, ?einv, ?fpow2k⟩
  case fpow2k =>
    exact fun d e a k hk => ⟨_, exec_fpow2k_of_ne_zero hk d a s, exec_fpow2k_of_ne_zero hk e a s⟩
  case redc | fsqr | finv | fsqrt | fp34 | fmov => exact fun d e a => ⟨_, rfl, rfl⟩
  case addl | daddl | dsubl | fmul | fadd | fsub => exact fun d e a b => ⟨_, rfl, rfl⟩
  case esqr | einv => exact fun d e a => ⟨_, _, rfl, rfl⟩
  case emul | eadd | esub => exact fun d e a b => ⟨_, _, rfl, rfl⟩

end Sys2Proof.Machine
end
